-- ==== Sys2Proof/Word.lean ====
section
/-! DEFINITION. The bit-vector types of the block: a memory cell or V register (spec R20, R21) and the 16-bit
instruction words, addresses and address registers (R25, R26, R71). -/

namespace Sys2Proof

/-- 8 bits: one memory cell, one V register, one timer (R20, R21, R30, R31). -/
abbrev Byte := BitVec 8

/-- 16 bits: an instruction word (R71), I, pc and a stack entry (R25, R26, R27). -/
abbrev Word := BitVec 16

/-- A register number or key number, already shifted down to 0..15 (R22, R32). -/
abbrev Reg := Fin 16

end Sys2Proof
end

