-- ==== Sys2Proof/Syntax.lean ====
section
/-! DEFINITION. The instruction set: one constructor per row of spec/opcode_table.json (spec R81, 34 rows). Register
fields are numbers 0..15, already shifted down (R22); immediates have the width of their field (R71, R72). -/

namespace Sys2Proof

/-- A decoded instruction: "a tagged instruction (a mnemonic with its operand fields X, Y, N, NN, NNN)" (R74). -/
inductive Instr where
  /-- `CLS`, 00E0 (R194). -/
  | cls
  /-- `RET`, 00EE (R120). -/
  | ret
  /-- `JP addr`, 1NNN (R121). -/
  | jp (nnn : BitVec 12)
  /-- `CALL addr`, 2NNN (R122). -/
  | call (nnn : BitVec 12)
  /-- `SE Vx,byte`, 3XNN (R124). -/
  | seByte (x : Reg) (nn : Byte)
  /-- `SNE Vx,byte`, 4XNN (R125). -/
  | sneByte (x : Reg) (nn : Byte)
  /-- `SE Vx,Vy`, 5XY0 (R126). -/
  | seReg (x y : Reg)
  /-- `LD Vx,byte`, 6XNN (R141). -/
  | ldByte (x : Reg) (nn : Byte)
  /-- `ADD Vx,byte`, 7XNN (R142). -/
  | addByte (x : Reg) (nn : Byte)
  /-- `LD Vx,Vy`, 8XY0 (R143). -/
  | ldReg (x y : Reg)
  /-- `OR Vx,Vy`, 8XY1 (R144). -/
  | or (x y : Reg)
  /-- `AND Vx,Vy`, 8XY2 (R145). -/
  | and (x y : Reg)
  /-- `XOR Vx,Vy`, 8XY3 (R146). -/
  | xor (x y : Reg)
  /-- `ADD Vx,Vy`, 8XY4 (R148). -/
  | addReg (x y : Reg)
  /-- `SUB Vx,Vy`, 8XY5 (R149). -/
  | sub (x y : Reg)
  /-- `SHR Vx`, 8XY6 (R150). The word carries a Y field that the meaning does not read (R78). -/
  | shr (x y : Reg)
  /-- `SUBN Vx,Vy`, 8XY7 (R151). -/
  | subn (x y : Reg)
  /-- `SHL Vx`, 8XYE (R152). The word carries a Y field that the meaning does not read (R78). -/
  | shl (x y : Reg)
  /-- `SNE Vx,Vy`, 9XY0 (R127). -/
  | sneReg (x y : Reg)
  /-- `LD I,addr`, ANNN (R170). -/
  | ldI (nnn : BitVec 12)
  /-- `JP V0,addr`, BNNN (R123). -/
  | jpV0 (nnn : BitVec 12)
  /-- `RND Vx,byte`, CXNN (R153). -/
  | rnd (x : Reg) (nn : Byte)
  /-- `DRW Vx,Vy,n`, DXYN (R196). -/
  | drw (x y : Reg) (n : BitVec 4)
  /-- `SKP Vx`, EX9E (R225). -/
  | skp (x : Reg)
  /-- `SKNP Vx`, EXA1 (R226). -/
  | sknp (x : Reg)
  /-- `LD Vx,DT`, FX07 (R222). -/
  | ldVxDT (x : Reg)
  /-- `LD Vx,K`, FX0A (R230). -/
  | ldVxK (x : Reg)
  /-- `LD DT,Vx`, FX15 (R223). -/
  | ldDTVx (x : Reg)
  /-- `LD ST,Vx`, FX18 (R224). -/
  | ldSTVx (x : Reg)
  /-- `ADD I,Vx`, FX1E (R171). -/
  | addIVx (x : Reg)
  /-- `LD F,Vx`, FX29 (R172). -/
  | ldFVx (x : Reg)
  /-- `LD B,Vx`, FX33 (R175). -/
  | ldBVx (x : Reg)
  /-- `LD [I],Vx`, FX55 (R176). -/
  | storeRegs (x : Reg)
  /-- `LD Vx,[I]`, FX65 (R177). -/
  | loadRegs (x : Reg)
  deriving DecidableEq, Repr

end Sys2Proof
end

