-- ==== Sys2Proof/WellFormed.lean ====
section
/-! DEFINITION. Well-formedness of operands (spec R72): each operand form and the range of its value. The constructors of
`Instr` hold each operand in a type of exactly its width, so every `Instr` is well formed (`Instr.wellFormed_all` in
Sys2Proof/Laws/PerInstr.lean); the checks bite on operands given as plain numbers, as an assembler writes them (R82). -/

namespace Sys2Proof

/-- The operand forms of R72. -/
inductive OperandForm where
  /-- `Vx`: a register number taken from X. -/
  | vx
  /-- `Vy`: a register number taken from Y. -/
  | vy
  /-- `byte`: NN. -/
  | byte
  /-- `n`: N. -/
  | nibble
  /-- `addr`: NNN. -/
  | addr
  deriving DecidableEq, Repr

/-- R72, column "value": an operand of this form is below this number. -/
def OperandForm.limit : OperandForm → Nat
  | .vx => 16
  | .vy => 16
  | .byte => 256
  | .nibble => 16
  | .addr => 4096

/-- An operand as a plain number, with its form. -/
structure Operand where
  form : OperandForm
  value : Nat
  deriving DecidableEq, Repr

/-- The value lies in the range R72 gives the form. -/
def Operand.wellFormed (o : Operand) : Bool := decide (o.value < o.form.limit)

/-- The operand fields of an instruction's word, in the order of the columns of R81 (the Y that SHR and SHL carry
included, R78). -/
def Instr.operands : Instr → List Operand
  | .cls | .ret => []
  | .jp nnn | .call nnn | .ldI nnn | .jpV0 nnn => [⟨.addr, nnn.toNat⟩]
  | .seByte x nn | .sneByte x nn | .ldByte x nn | .addByte x nn | .rnd x nn => [⟨.vx, x⟩, ⟨.byte, nn.toNat⟩]
  | .seReg x y | .ldReg x y | .or x y | .and x y | .xor x y | .addReg x y | .sub x y | .shr x y | .subn x y
  | .shl x y | .sneReg x y => [⟨.vx, x⟩, ⟨.vy, y⟩]
  | .drw x y n => [⟨.vx, x⟩, ⟨.vy, y⟩, ⟨.nibble, n.toNat⟩]
  | .skp x | .sknp x | .ldVxDT x | .ldVxK x | .ldDTVx x | .ldSTVx x | .addIVx x | .ldFVx x | .ldBVx x
  | .storeRegs x | .loadRegs x => [⟨.vx, x⟩]

/-- Every operand of the instruction is in range. -/
def Instr.wellFormed (i : Instr) : Bool := i.operands.all Operand.wellFormed

end Sys2Proof
end

