-- ==== Sys2Proof/Decode.lean ====
section
/-! DEFINITION. The instruction encoding (spec 30_encoding.md): the fields of a word (R71), the opcode table (R81),
decoding (R74) and encoding. The bit patterns are the spec's, which takes them from the conventional table (R70, D2;
log entry 8). -/

namespace Sys2Proof

/-! ### Fields (R71, R72, R22) -/

/-- X, `w[11:8]`, shifted down to 0..15 (R22, R71). -/
def fieldX (w : Word) : Reg := (w.extractLsb' 8 4).toFin

/-- Y, `w[7:4]`, shifted down to 0..15 (R22, R71). -/
def fieldY (w : Word) : Reg := (w.extractLsb' 4 4).toFin

/-- N, `w[3:0]` (R71). -/
def fieldN (w : Word) : BitVec 4 := w.extractLsb' 0 4

/-- NN, `w[7:0]` (R71). -/
def fieldNN (w : Word) : Byte := w.extractLsb' 0 8

/-- NNN, `w[11:0]` (R71). -/
def fieldNNN (w : Word) : BitVec 12 := w.extractLsb' 0 12

/-! ### The opcode table (R81) -/

/-- A row of R81: a word `w` is the instruction iff `w & mask = pattern`; `build` reads its fields. -/
structure Row where
  mask : Word
  pattern : Word
  build : Word → Instr

/-- R81: "a word w is the instruction iff `w & mask = match`". -/
def Row.covers (r : Row) (w : Word) : Bool := w &&& r.mask == r.pattern

/-- R81, rows 1 to 9. -/
def rowsControl : List Row := [
  ⟨0xFFFF, 0x00E0, fun _ => .cls⟩,
  ⟨0xFFFF, 0x00EE, fun _ => .ret⟩,
  ⟨0xF000, 0x1000, fun w => .jp (fieldNNN w)⟩,
  ⟨0xF000, 0x2000, fun w => .call (fieldNNN w)⟩,
  ⟨0xF000, 0x3000, fun w => .seByte (fieldX w) (fieldNN w)⟩,
  ⟨0xF000, 0x4000, fun w => .sneByte (fieldX w) (fieldNN w)⟩,
  ⟨0xF00F, 0x5000, fun w => .seReg (fieldX w) (fieldY w)⟩,
  ⟨0xF000, 0x6000, fun w => .ldByte (fieldX w) (fieldNN w)⟩,
  ⟨0xF000, 0x7000, fun w => .addByte (fieldX w) (fieldNN w)⟩]

/-- R81, rows 10 to 19 (class 8 of R78, and 9XY0 of R77). -/
def rowsAlu : List Row := [
  ⟨0xF00F, 0x8000, fun w => .ldReg (fieldX w) (fieldY w)⟩,
  ⟨0xF00F, 0x8001, fun w => .or (fieldX w) (fieldY w)⟩,
  ⟨0xF00F, 0x8002, fun w => .and (fieldX w) (fieldY w)⟩,
  ⟨0xF00F, 0x8003, fun w => .xor (fieldX w) (fieldY w)⟩,
  ⟨0xF00F, 0x8004, fun w => .addReg (fieldX w) (fieldY w)⟩,
  ⟨0xF00F, 0x8005, fun w => .sub (fieldX w) (fieldY w)⟩,
  ⟨0xF00F, 0x8006, fun w => .shr (fieldX w) (fieldY w)⟩,
  ⟨0xF00F, 0x8007, fun w => .subn (fieldX w) (fieldY w)⟩,
  ⟨0xF00F, 0x800E, fun w => .shl (fieldX w) (fieldY w)⟩,
  ⟨0xF00F, 0x9000, fun w => .sneReg (fieldX w) (fieldY w)⟩]

/-- R81, rows 20 to 25 (classes A to D of R76, class E of R79). -/
def rowsIndex : List Row := [
  ⟨0xF000, 0xA000, fun w => .ldI (fieldNNN w)⟩,
  ⟨0xF000, 0xB000, fun w => .jpV0 (fieldNNN w)⟩,
  ⟨0xF000, 0xC000, fun w => .rnd (fieldX w) (fieldNN w)⟩,
  ⟨0xF000, 0xD000, fun w => .drw (fieldX w) (fieldY w) (fieldN w)⟩,
  ⟨0xF0FF, 0xE09E, fun w => .skp (fieldX w)⟩,
  ⟨0xF0FF, 0xE0A1, fun w => .sknp (fieldX w)⟩]

/-- R81, rows 26 to 34 (class F of R80). -/
def rowsMisc : List Row := [
  ⟨0xF0FF, 0xF007, fun w => .ldVxDT (fieldX w)⟩,
  ⟨0xF0FF, 0xF00A, fun w => .ldVxK (fieldX w)⟩,
  ⟨0xF0FF, 0xF015, fun w => .ldDTVx (fieldX w)⟩,
  ⟨0xF0FF, 0xF018, fun w => .ldSTVx (fieldX w)⟩,
  ⟨0xF0FF, 0xF01E, fun w => .addIVx (fieldX w)⟩,
  ⟨0xF0FF, 0xF029, fun w => .ldFVx (fieldX w)⟩,
  ⟨0xF0FF, 0xF033, fun w => .ldBVx (fieldX w)⟩,
  ⟨0xF0FF, 0xF055, fun w => .storeRegs (fieldX w)⟩,
  ⟨0xF0FF, 0xF065, fun w => .loadRegs (fieldX w)⟩]

/-- The opcode map of R81: 34 disjoint rows. -/
def opcodeTable : List Row := rowsControl ++ rowsAlu ++ rowsIndex ++ rowsMisc

/-! ### Decoding -/

/-- `decode(w)` of R74: the instruction of the row that covers `w`, or `none`, which is the spec's `Unknown` (R84).
Total on all 65536 words; it reads no state (R73, R102). -/
def decode (w : Word) : Option Instr := (opcodeTable.find? (·.covers w)).map (·.build w)

/-- Why bytes hold no instruction. -/
inductive DecodeError where
  /-- The word matches no row of R81 (R84: `UnknownOpcode`). -/
  | unknownOpcode (w : Word)
  /-- Fewer than two bytes: every instruction is exactly 2 bytes (R73). -/
  | truncated
  deriving DecidableEq, Repr

/-- The 16-bit word of two bytes, the first the more significant (R52). -/
def wordOfBytes (hi lo : Byte) : Word := hi ++ lo

/-- The bytes of a word in memory order, the more significant first (R52). -/
def bytesOfWord (w : Word) : List Byte := [w.extractLsb' 8 8, w.extractLsb' 0 8]

/-- Decoding of a list of bytes: the first instruction and the bytes after it, or the reason there is none. -/
def decodeBytes : List Byte → Except DecodeError (Instr × List Byte)
  | hi :: lo :: rest =>
    match decode (wordOfBytes hi lo) with
    | some i => .ok (i, rest)
    | none => .error (.unknownOpcode (wordOfBytes hi lo))
  | _ => .error .truncated

/-- The word whose low `nbits` bits are those of `w`, as spec/opcode_table.json numbers them (bit 0 the least significant
of the one 16-bit word), every bit above them 0. -/
def tableWord (nbits w : Nat) : Word := BitVec.ofNat 16 (w % 2 ^ nbits)

/-- What the decoder reads from an instruction whose bits are `w`, laid out in memory as R52 says. -/
def decodeTableWord (nbits w : Nat) : Option Instr :=
  match decodeBytes (bytesOfWord (tableWord nbits w)) with
  | .ok (i, _) => some i
  | .error _ => none

/-! ### Encoding -/

/-- The four bits of a register number. -/
def regBits (x : Reg) : BitVec 4 := BitVec.ofFin x

/-- A word of class `c` with an address field: cNNN (R71). -/
def encodeAddr (c : BitVec 4) (nnn : BitVec 12) : Word := c ++ nnn

/-- A word of class `c` with a register and a byte: cXNN (R71). -/
def encodeByte (c : BitVec 4) (x : Reg) (nn : Byte) : Word := c ++ (regBits x ++ nn)

/-- A word of class `c` with two registers and a nibble: cXYN (R71). -/
def encodeRegs (c : BitVec 4) (x y : Reg) (n : BitVec 4) : Word := c ++ (regBits x ++ (regBits y ++ n))

/-- The word of an instruction, from the patterns of R75–R80. -/
def encode : Instr → Word
  | .cls => 0x00E0#16
  | .ret => 0x00EE#16
  | .jp nnn => encodeAddr 0x1#4 nnn
  | .call nnn => encodeAddr 0x2#4 nnn
  | .seByte x nn => encodeByte 0x3#4 x nn
  | .sneByte x nn => encodeByte 0x4#4 x nn
  | .seReg x y => encodeRegs 0x5#4 x y 0x0#4
  | .ldByte x nn => encodeByte 0x6#4 x nn
  | .addByte x nn => encodeByte 0x7#4 x nn
  | .ldReg x y => encodeRegs 0x8#4 x y 0x0#4
  | .or x y => encodeRegs 0x8#4 x y 0x1#4
  | .and x y => encodeRegs 0x8#4 x y 0x2#4
  | .xor x y => encodeRegs 0x8#4 x y 0x3#4
  | .addReg x y => encodeRegs 0x8#4 x y 0x4#4
  | .sub x y => encodeRegs 0x8#4 x y 0x5#4
  | .shr x y => encodeRegs 0x8#4 x y 0x6#4
  | .subn x y => encodeRegs 0x8#4 x y 0x7#4
  | .shl x y => encodeRegs 0x8#4 x y 0xE#4
  | .sneReg x y => encodeRegs 0x9#4 x y 0x0#4
  | .ldI nnn => encodeAddr 0xA#4 nnn
  | .jpV0 nnn => encodeAddr 0xB#4 nnn
  | .rnd x nn => encodeByte 0xC#4 x nn
  | .drw x y n => encodeRegs 0xD#4 x y n
  | .skp x => encodeByte 0xE#4 x 0x9E#8
  | .sknp x => encodeByte 0xE#4 x 0xA1#8
  | .ldVxDT x => encodeByte 0xF#4 x 0x07#8
  | .ldVxK x => encodeByte 0xF#4 x 0x0A#8
  | .ldDTVx x => encodeByte 0xF#4 x 0x15#8
  | .ldSTVx x => encodeByte 0xF#4 x 0x18#8
  | .addIVx x => encodeByte 0xF#4 x 0x1E#8
  | .ldFVx x => encodeByte 0xF#4 x 0x29#8
  | .ldBVx x => encodeByte 0xF#4 x 0x33#8
  | .storeRegs x => encodeByte 0xF#4 x 0x55#8
  | .loadRegs x => encodeByte 0xF#4 x 0x65#8

end Sys2Proof
end

