-- ==== Sys2Proof/Config.lean ====
section
/-! DEFINITION. The parameters of the block (spec R9) and its free values. A free value is a constant without a body:
no proof can know what it is, so whatever is proved holds for every value of it. -/

namespace Sys2Proof.Config

/-- `MEM_SIZE` (R9, R20): addresses 0x000..0xFFF exist, and pc and I are reduced mod this (R14). -/
abbrev memSize : Nat := 4096

/-- `PC_RESET` (R9, R280). -/
abbrev pcReset : Word := 0x200#16

/-- `FONT_BASE` (R9, R34). -/
abbrev fontBase : Nat := 0x050

/-- `FONT_GLYPH_BYTES` (R9, R34). -/
abbrev glyphBytes : Nat := 5

/-- `PROGRAM_BASE` (R9, R285). -/
abbrev programBase : Nat := 0x200

/-- `ROM_MAX` (R9, R284). -/
abbrev romMax : Nat := 3584

/-- `DISPLAY_W` (R9, R33). -/
abbrev displayW : Nat := 64

/-- `DISPLAY_H` (R9, R33). -/
abbrev displayH : Nat := 32

/-- `DT_RESET`, an OPEN parameter of the spec (R282, 90_conflicts.md C2): any byte. Log entry 2, safe. -/
opaque dtReset : Byte

/-- `ST_RESET`, an OPEN parameter of the spec (R282, 90_conflicts.md C2): any byte. Log entry 2, safe. -/
opaque stReset : Byte

/-- `draw_byte()` (R13, R153): the byte the n-th draw gives, under no law. Log entry 1, safe. -/
opaque freeByte : Nat → Byte

/-- `draw_key(S)` (R13, R231): which of the pressed keys the n-th draw takes, under no law; it is reduced mod the number
of pressed keys, so every one of them can be the result. Log entry 3, safe. -/
opaque freeKey : Nat → Nat

/-- R258: whether a location that a faulting instruction writes before its failing check holds its new value (true) or
its old one (false), one draw a location, under no law. Log entry 4, safe. -/
opaque freeBit : Nat → Bool

end Sys2Proof.Config
end

