-- ==== Sys2Proof/Machine/State.lean ====
section
/-! DEFINITION. The machine's state as plain data (spec 10_state.md): every piece of state R38 lists, the boot phase R283
implies, and the model's own draw counter. -/

namespace Sys2Proof.Machine

/-- The error codes of R250: a closed enumeration, the error's name is its code (D18). -/
inductive ErrorKind where
  /-- Fatal: an address the engine computed is not in 0..4095 (R251). -/
  | boundsError
  /-- Fatal: CALL at sp = 16 (R252). -/
  | stackOverflow
  /-- Fatal: RET at sp = 0 (R253). -/
  | stackUnderflow
  /-- Non-fatal: a word that decodes to `Unknown` (R254). -/
  | unknownOpcode
  /-- Fatal: SKP, SKNP or LD F,Vx with Vx > 15 (R255). -/
  | operandRangeError
  /-- Load-time: more than 3584 bytes (R256, R284). -/
  | capacityExceeded
  /-- Load-time: the source cannot be read (R256, R286). -/
  | sourceUnavailable
  deriving DecidableEq, Repr

/-- R250, column "kind". -/
inductive Severity where
  | fatal
  | nonFatal
  | loadTime
  deriving DecidableEq, Repr

/-- R250: the kind of each error. -/
def ErrorKind.severity : ErrorKind → Severity
  | .boundsError => .fatal
  | .stackOverflow => .fatal
  | .stackUnderflow => .fatal
  | .unknownOpcode => .nonFatal
  | .operandRangeError => .fatal
  | .capacityExceeded => .loadTime
  | .sourceUnavailable => .loadTime

/-- The fault record of R36: the kind, the pc of the instruction that faulted, and the offending address, present for
`BoundsError` only. The address is the exact integer, so it can be 0x1000 (R55). -/
structure FaultRecord where
  kind : ErrorKind
  pc : Word
  addr : Option Nat
  deriving DecidableEq, Repr

/-- One `UnknownOpcode(w, pc)` report of R37. -/
structure UnknownReport where
  word : Word
  pc : Word
  deriving DecidableEq, Repr

/-- The memory of R20 and R50 in canonical form: the cells that differ from their reset contents, addresses strictly
rising. What an address that is not listed reads as is `resetByte` of Sys2Proof/Machine/Ops.lean. -/
abbrev Memory := List Host.Cell

/-- The 64 × 32 grid of R33: `fb[x][y]` is the pixel at column x and row y, true when it is on. -/
abbrev Grid := Vector (Vector Bool 32) 64

/-- Every piece of state the spec gives the block (R38), the boot phase and the model's draw counter. -/
structure State where
  /-- The 4096 bytes of memory (R20). -/
  mem : Memory
  /-- V0..VF (R21). -/
  v : Vector Byte 16
  /-- The index register (R25). -/
  I : Word
  /-- The program counter (R26). -/
  pc : Word
  /-- The stack pointer, 0..16 (R27). -/
  sp : Fin 17
  /-- The 16 entries of the return-address stack (R27). -/
  stack : Vector Word 16
  /-- The delay timer DT (R30). -/
  dt : Byte
  /-- The sound timer ST (R31). -/
  st : Byte
  /-- The key array, true means pressed (R32). -/
  key : Vector Bool 16
  /-- The framebuffer (R33). -/
  fb : Grid
  /-- The redraw-pending flag (R33). -/
  redraw : Bool
  /-- The key wait: the register the pressed key goes to (R35). -/
  wait : Option Reg
  /-- The fault record of a halted session (R36). -/
  halted : Option FaultRecord
  /-- The reports of unknown words, oldest first (R37). -/
  diag : List UnknownReport
  /-- True between `reset()` and the first `step()` after it: the boot phase, in which `load` is admitted (R283).
  Log entry 9. -/
  boot : Bool
  /-- The MODEL'S OWN: how many free values have been drawn (R13, R39). No rule reads it. Log entry 1. -/
  draws : Nat
  deriving DecidableEq, Repr

/-- The reasons the machine stops with a fault: none. Every error of the spec is either a next state, halted by a fault
record (R257), or the reply of a host transaction (R256), so the model has no fault (log entry 5). -/
inductive Fault where
  deriving DecidableEq, Repr

/-- The reasons a transaction is refused. -/
inductive Refusal where
  /-- An instruction without a meaning. Raised by no arm of `exec`: every instruction has its meaning. Safe. -/
  | notModelled (mnemonic : String)
  /-- `load` outside the boot phase: "A model gives `load` no move outside the boot phase" (R283, D26). Raised by the
  host transaction `load` only, never by a step. Safe: it admits no behaviour. -/
  | loadOutsideBoot
  deriving DecidableEq, Repr

/-- A blank screen. -/
def Grid.blank : Grid := Vector.replicate 64 (Vector.replicate 32 false)

/-- The state `reset()` leaves (R280, R281, table of R38). DT and ST hold the OPEN parameters of R282. -/
def State.reset : State where
  mem := []
  v := Vector.replicate 16 0
  I := 0
  pc := Config.pcReset
  sp := 0
  stack := Vector.replicate 16 0
  dt := Config.dtReset
  st := Config.stReset
  key := Vector.replicate 16 false
  fb := Grid.blank
  redraw := false
  wait := none
  halted := none
  diag := []
  boot := true
  draws := 0

end Sys2Proof.Machine
end

