-- ==== Sys2Proof/Machine/Ops.lean ====
section
/-! DEFINITION. The named operations over memory, registers, pc, stack and display, the free values, and the one operation
that takes a fatal error (spec R257). There is no return from one: only `reset()` leaves the halted state (R261). -/

namespace Sys2Proof.Machine

/-! ### Memory (R20, R50–R57) -/

/-- Glyphs 0 to 7 of the font table (R34). -/
def fontLow : List Byte := [
  0xF0, 0x90, 0x90, 0x90, 0xF0,  0x20, 0x60, 0x20, 0x20, 0x70,
  0xF0, 0x10, 0xF0, 0x80, 0xF0,  0xF0, 0x10, 0xF0, 0x10, 0xF0,
  0x90, 0x90, 0xF0, 0x10, 0x10,  0xF0, 0x80, 0xF0, 0x10, 0xF0,
  0xF0, 0x80, 0xF0, 0x90, 0xF0,  0xF0, 0x10, 0x20, 0x40, 0x40]

/-- Glyphs 8 to F of the font table (R34). -/
def fontHigh : List Byte := [
  0xF0, 0x90, 0xF0, 0x90, 0xF0,  0xF0, 0x90, 0xF0, 0x10, 0xF0,
  0xF0, 0x90, 0xF0, 0x90, 0x90,  0xE0, 0x90, 0xE0, 0x90, 0xE0,
  0xF0, 0x80, 0x80, 0x80, 0xF0,  0xE0, 0x90, 0x90, 0x90, 0xE0,
  0xF0, 0x80, 0xF0, 0x80, 0xF0,  0xF0, 0x80, 0xF0, 0x80, 0x80]

/-- `FONT`, the 80 bytes of R34 (PRESUMED: the spec takes them from general knowledge; log entry 7, unsafe). -/
def font : List Byte := fontLow ++ fontHigh

/-- What memory holds after `reset()`: the font at 0x050..0x09F, 0 elsewhere (R38, R280, R281). This is what an address
that the memory's list does not name reads as (log entry 12). -/
def resetByte (a : Nat) : Byte :=
  if Config.fontBase ≤ a then font.getD (a - Config.fontBase) 0 else 0

/-- `MemRead(a, 1)` for an address in range (R12, R53). -/
def Memory.read : Memory → Nat → Byte
  | [], a => resetByte a
  | (a', b) :: m, a => if a = a' then b else Memory.read m a

/-- The cell (a, b) before `m`, unless `b` is what `a` reads as anyway. -/
def Memory.cons (a : Nat) (b : Byte) (m : Memory) : Memory := if b = resetByte a then m else (a, b) :: m

/-- `MemWrite(a, 1, b)` for an address in range (R12, R53, R57), keeping the canonical form. -/
def Memory.write : Memory → Nat → Byte → Memory
  | [], a, b => Memory.cons a b []
  | (a', b') :: m, a, b =>
    if a < a' then Memory.cons a b ((a', b') :: m)
    else if a = a' then Memory.cons a b m
    else (a', b') :: Memory.write m a b

/-- The canonical form from address `lo` on: addresses strictly rising and inside the address space, no cell equal to what
its address reads as when it is not listed. -/
def Memory.wfFrom (lo : Nat) : Memory → Bool
  | [] => true
  | (a, b) :: m => decide (lo ≤ a) && decide (a < Config.memSize) && (b != resetByte a) && Memory.wfFrom (a + 1) m

/-- The memory is in canonical form. -/
def Memory.wf (m : Memory) : Bool := Memory.wfFrom 0 m

/-- Stores bytes at ascending addresses from `base` on (R58). -/
def Memory.storeBytes (m : Memory) (base : Nat) : List Byte → Memory
  | [] => m
  | b :: bs => Memory.storeBytes (Memory.write m base b) (base + 1) bs

/-- The byte at address `a` (R12). -/
def State.readByte (s : State) (a : Nat) : Byte := Memory.read s.mem a

/-- The first offset k below `n` whose exact address `base + k` is outside memory (R55, R174, R259). -/
def firstOutOfRange (base n : Nat) : Option Nat := (List.range n).find? (fun k => Config.memSize ≤ base + k)

/-! ### Free values (R13, R39) -/

/-- A location after a fatal error: its old value or the new one the instruction would have written (R258), as the
`draw`-th free bit has it. -/
def oldOrNew {α : Type} (draw : Nat) (old new : α) : α := if Config.freeBit draw then new else old

/-- `draw_key(S)` for the non-empty set of keys `k :: ks` (R13, R231). -/
def drawKey (draw : Nat) (k : Reg) (ks : List Reg) : Reg :=
  (k :: ks).getD (Config.freeKey draw % (ks.length + 1)) k

/-- Bytes stored from `base` on by an instruction that then faults: each address keeps its old byte or takes the new one
(R258). -/
def Memory.storeOldOrNew (m : Memory) (draw base : Nat) : List Byte → Memory
  | [] => m
  | b :: bs =>
    Memory.storeOldOrNew (Memory.write m base (oldOrNew draw (Memory.read m base) b)) (draw + 1) (base + 1) bs

/-! ### Registers and pc (R11, R14, R21, R25, R26) -/

/-- VF, the flag register (R23, R24). -/
abbrev VF : Reg := 15

/-- `V[r] <- b` (R11). No register is hardwired (R21). -/
def State.setV (s : State) (r : Reg) (b : Byte) : State := { s with v := s.v.set r b }

/-- `I <- a`, reduced mod 4096 (R14, R25). -/
def State.setI (s : State) (a : Nat) : State := { s with I := BitVec.ofNat 16 (a % Config.memSize) }

/-- `pc <- a`, reduced mod 4096 (R14, R26). -/
def State.setPc (s : State) (a : Nat) : State := { s with pc := BitVec.ofNat 16 (a % Config.memSize) }

/-- `pc <- next(pc)` (R14, R104). -/
def State.advance (s : State) : State := s.setPc (s.pc.toNat + 2)

/-- `pc <- skip(pc)` when the condition holds, else `pc <- next(pc)` (R14, R104). -/
def State.skipIf (s : State) (cond : Bool) : State := if cond then s.setPc (s.pc.toNat + 4) else s.advance

/-! ### Taking a fatal error (R257) -/

/-- A fatal error: the step ends with the fault record (kind, pc of the instruction, address). pc keeps the address of the
faulting instruction (R258), since no instruction writes pc before its last check. -/
def State.takeFatal (s : State) (kind : ErrorKind) (addr : Option Nat) : State :=
  { s with halted := some (FaultRecord.mk kind s.pc addr) }

/-! ### The return stack (R27–R29) -/

/-- `push(a)` (R28): `none` when sp = 16, and nothing is written. -/
def State.push (s : State) (a : Word) : Option State :=
  if h : s.sp.val < 16 then
    some { s with stack := s.stack.set s.sp.val a, sp := ⟨s.sp.val + 1, by omega⟩ }
  else none

/-- `pop()` (R29): `none` when sp = 0; else the entry just below sp, which keeps its value. -/
def State.pop (s : State) : Option (Word × State) :=
  if h : s.sp.val = 0 then none
  else some (s.stack[s.sp.val - 1]'(by omega), { s with sp := ⟨s.sp.val - 1, by omega⟩ })

/-! ### The framebuffer (R33, R190, R193) -/

/-- The grid with pixel (x, y) set to `b`. -/
def Grid.setPixel (g : Grid) (x : Fin 64) (y : Fin 32) (b : Bool) : Grid := g.set x (g[x].set y b)

/-- `toggle(x, y)`: flips one pixel and marks redraw (R193). -/
def State.toggle (s : State) (x : Fin 64) (y : Fin 32) : State :=
  { s with fb := Grid.setPixel s.fb x y (!s.fb[x][y]), redraw := true }

/-! ### Block transfers at I (R174–R177) -/

/-- Stores `bytes` at I, I+1, ... and advances pc; if an address is outside memory, takes `BoundsError` with the first
such address, and the bytes before it are old or new (R55, R58, R174, R258). I is unchanged (R173). -/
def State.storeBlock (s : State) (bytes : List Byte) : State :=
  match firstOutOfRange s.I.toNat bytes.length with
  | none => { s with mem := Memory.storeBytes s.mem s.I.toNat bytes }.advance
  | some k =>
    { s with
      mem := Memory.storeOldOrNew s.mem s.draws s.I.toNat (bytes.take k)
      draws := s.draws + k }.takeFatal .boundsError (some (s.I.toNat + k))

/-- Loads V0 .. V(n-1) from I, I+1, ... and advances pc; if an address is outside memory, takes `BoundsError` with the
first such address, and the registers before it are old or new (R55, R58, R174, R177, R258). I is unchanged (R173). -/
def State.loadBlock (s : State) (n : Nat) : State :=
  match firstOutOfRange s.I.toNat n with
  | none =>
    { s with v := Vector.ofFn fun r : Fin 16 => if r.val < n then s.readByte (s.I.toNat + r) else s.v[r] }.advance
  | some k =>
    { s with
      v := Vector.ofFn fun r : Fin 16 =>
        if r.val < k then oldOrNew (s.draws + r) s.v[r] (s.readByte (s.I.toNat + r)) else s.v[r]
      draws := s.draws + k }.takeFatal .boundsError (some (s.I.toNat + k))

/-! ### Unknown words and the boot phase (R105, R283) -/

/-- `unknown(w)`: reports (w, pc) and advances pc (R105). -/
def State.reportUnknown (s : State) (w : Word) : State :=
  { s with diag := s.diag ++ [UnknownReport.mk w s.pc] }.advance

/-- The boot phase ends with the first step (R283). -/
def State.leaveBoot (s : State) : State := { s with boot := false }

end Sys2Proof.Machine
end

