-- ==== Sys2Proof/Machine/Operands.lean ====
section
/-! DEFINITION. What each operand form gives an instruction (spec R72): registers, key numbers, glyph addresses, BCD digits,
register blocks and the sprite's anchor and bits. -/

namespace Sys2Proof.Machine

/-- The register content as a register-sized number below 16, if it is one: the index of a key or glyph (R172, R227). -/
def nibbleIndex (b : Byte) : Option Reg := if h : b.toNat < 16 then some ⟨b.toNat, h⟩ else none

/-- The address of the glyph of digit `d`: 0x050 + 5 d (R34, R172). -/
def glyphAddr (d : Reg) : Nat := Config.fontBase + d.val * Config.glyphBytes

/-- The decimal digits of a byte, most significant first: hundreds, tens, ones (R175). -/
def bcdDigits (b : Byte) : List Byte :=
  [BitVec.ofNat 8 (b.toNat / 100), BitVec.ofNat 8 (b.toNat / 10 % 10), BitVec.ofNat 8 (b.toNat % 10)]

/-- V0 .. Vx, inclusive, ascending (R176). -/
def registerBlock (s : State) (x : Reg) : List Byte := s.v.toList.take (x.val + 1)

/-- The anchor's column: Vx mod 64 (R196, step 1). -/
def anchorX (b : Byte) : Nat := b.toNat % Config.displayW

/-- The anchor's row: Vy mod 32 (R196, step 1). -/
def anchorY (b : Byte) : Nat := b.toNat % Config.displayH

/-- How many of the sprite's `n` rows lie above the bottom edge, and so are read and drawn (R196 step 3, R201). -/
def rowsDrawn (y0 n : Nat) : Nat := min n (Config.displayH - y0)

/-- Bit c of a sprite row from the left, `b & (0x80 >> c)` (R195, R196). -/
def spriteBit (b : Byte) (c : Nat) : Bool := b &&& (0x80#8 >>> c) != 0#8

/-- The keys that are pressed, ascending: the set S of R231. -/
def pressedKeys (s : State) : List Reg := (List.finRange 16).filter fun k => s.key[k]

end Sys2Proof.Machine
end

