-- ==== Sys2Proof/Machine/Flags.lean ====
section
/-! DEFINITION. The results and the VF flags of the ALU (spec 42_alu.md). Each computes the exact integer and narrows it
at the end (R140). -/

namespace Sys2Proof.Machine

/-- A flag as the value VF takes: 1 or 0 (R148–R152). -/
def flagByte (b : Bool) : Byte := if b then 1 else 0

/-- `(a + b) mod 256` (R142, R148). -/
def addResult (a b : Byte) : Byte := BitVec.ofNat 8 ((a.toNat + b.toNat) % 256)

/-- Carry: 1 iff the unreduced sum is greater than 255 (R148). -/
def addFlag (a b : Byte) : Byte := flagByte (decide (a.toNat + b.toNat > 255))

/-- `(a - b) mod 256` (R149, R151). -/
def subResult (a b : Byte) : Byte := BitVec.ofNat 8 ((a.toNat + 256 - b.toNat) % 256)

/-- Not-borrow: 1 iff a ≥ b (R149, R151). -/
def subFlag (a b : Byte) : Byte := flagByte (decide (a.toNat ≥ b.toNat))

/-- `a >> 1` (R150). -/
def shrResult (a : Byte) : Byte := a >>> 1

/-- The bit SHR shifts out, bit 0 (R150). -/
def shrFlag (a : Byte) : Byte := a &&& 0x01#8

/-- `(a << 1) mod 256` (R152). -/
def shlResult (a : Byte) : Byte := a <<< 1

/-- The bit SHL shifts out, bit 7 (R152). -/
def shlFlag (a : Byte) : Byte := (a >>> 7) &&& 0x01#8

/-- Writes the result to Vx and after it the flag to VF, so the flag wins when x = 0xF (R147, D7). -/
def State.setResultAndFlag (s : State) (x : Reg) (r f : Byte) : State := (s.setV x r).setV VF f

end Sys2Proof.Machine
end

