-- ==== Sys2Proof/Machine/Alu.lean ====
section
/-! DEFINITION. Register loads, the ALU and RND (spec 42_alu.md). Operands are read from the state before the instruction
(R140, R15). -/

namespace Sys2Proof.Machine

/-- `LD Vx,byte` (R141). -/
def execLdByte (x : Reg) (nn : Byte) (s : State) : Host.Outcome State Fault Refusal :=
  .next (s.setV x nn).advance

/-- `ADD Vx,byte` (R142): no flag. -/
def execAddByte (x : Reg) (nn : Byte) (s : State) : Host.Outcome State Fault Refusal :=
  .next (s.setV x (addResult s.v[x] nn)).advance

/-- `LD Vx,Vy` (R143, D5; log entry 16). -/
def execLdReg (x y : Reg) (s : State) : Host.Outcome State Fault Refusal :=
  .next (s.setV x s.v[y]).advance

/-- `OR Vx,Vy` (R144): no flag (D8). -/
def execOr (x y : Reg) (s : State) : Host.Outcome State Fault Refusal :=
  .next (s.setV x (s.v[x] ||| s.v[y])).advance

/-- `AND Vx,Vy` (R145): no flag (D8). -/
def execAnd (x y : Reg) (s : State) : Host.Outcome State Fault Refusal :=
  .next (s.setV x (s.v[x] &&& s.v[y])).advance

/-- `XOR Vx,Vy` (R146): no flag (D8). -/
def execXor (x y : Reg) (s : State) : Host.Outcome State Fault Refusal :=
  .next (s.setV x (s.v[x] ^^^ s.v[y])).advance

/-- `ADD Vx,Vy` (R148): VF is the carry. -/
def execAddReg (x y : Reg) (s : State) : Host.Outcome State Fault Refusal :=
  .next (s.setResultAndFlag x (addResult s.v[x] s.v[y]) (addFlag s.v[x] s.v[y])).advance

/-- `SUB Vx,Vy` (R149): Vx − Vy, VF is not-borrow. -/
def execSub (x y : Reg) (s : State) : Host.Outcome State Fault Refusal :=
  .next (s.setResultAndFlag x (subResult s.v[x] s.v[y]) (subFlag s.v[x] s.v[y])).advance

/-- `SHR Vx` (R150): Y is not read (D9). -/
def execShr (x _y : Reg) (s : State) : Host.Outcome State Fault Refusal :=
  .next (s.setResultAndFlag x (shrResult s.v[x]) (shrFlag s.v[x])).advance

/-- `SUBN Vx,Vy` (R151): Vy − Vx, VF is not-borrow. -/
def execSubn (x y : Reg) (s : State) : Host.Outcome State Fault Refusal :=
  .next (s.setResultAndFlag x (subResult s.v[y] s.v[x]) (subFlag s.v[y] s.v[x])).advance

/-- `SHL Vx` (R152): Y is not read (D9). -/
def execShl (x _y : Reg) (s : State) : Host.Outcome State Fault Refusal :=
  .next (s.setResultAndFlag x (shlResult s.v[x]) (shlFlag s.v[x])).advance

/-- `RND Vx,byte` (R153): a fresh free byte, masked with nn. -/
def execRnd (x : Reg) (nn : Byte) (s : State) : Host.Outcome State Fault Refusal :=
  .next { s.setV x (Config.freeByte s.draws &&& nn) with draws := s.draws + 1 }.advance

end Sys2Proof.Machine
end

