-- ==== Sys2Proof/Machine/Control.lean ====
section
/-! DEFINITION. Control transfer (spec 41_control_flow.md). -/

namespace Sys2Proof.Machine

/-- `RET` (R120): pc takes the popped entry; `StackUnderflow` at sp = 0. -/
def execRet (s : State) : Host.Outcome State Fault Refusal :=
  match s.pop with
  | none => .next (s.takeFatal .stackUnderflow none)
  | some (a, t) => .next (t.setPc a.toNat)

/-- `JP addr` (R121). -/
def execJp (nnn : BitVec 12) (s : State) : Host.Outcome State Fault Refusal := .next (s.setPc nnn.toNat)

/-- `CALL addr` (R122): pushes next(pc), then jumps; `StackOverflow` at sp = 16. -/
def execCall (nnn : BitVec 12) (s : State) : Host.Outcome State Fault Refusal :=
  match s.push s.advance.pc with
  | none => .next (s.takeFatal .stackOverflow none)
  | some t => .next (t.setPc nnn.toNat)

/-- `JP V0,addr` (R123): pc takes (nnn + V0) mod 4096 (D6; log entry 16). -/
def execJpV0 (nnn : BitVec 12) (s : State) : Host.Outcome State Fault Refusal :=
  .next (s.setPc (nnn.toNat + s.v[(0 : Reg)].toNat))

/-- `SE Vx,byte` (R124). -/
def execSeByte (x : Reg) (nn : Byte) (s : State) : Host.Outcome State Fault Refusal :=
  .next (s.skipIf (s.v[x] == nn))

/-- `SNE Vx,byte` (R125). -/
def execSneByte (x : Reg) (nn : Byte) (s : State) : Host.Outcome State Fault Refusal :=
  .next (s.skipIf (s.v[x] != nn))

/-- `SE Vx,Vy` (R126). -/
def execSeReg (x y : Reg) (s : State) : Host.Outcome State Fault Refusal :=
  .next (s.skipIf (s.v[x] == s.v[y]))

/-- `SNE Vx,Vy` (R127). -/
def execSneReg (x y : Reg) (s : State) : Host.Outcome State Fault Refusal :=
  .next (s.skipIf (s.v[x] != s.v[y]))

end Sys2Proof.Machine
end

