-- ==== Sys2Proof/Machine/Display.lean ====
section
/-! DEFINITION. The display instructions CLS and DRW (spec 44_display.md). -/

namespace Sys2Proof.Machine

/-- `CLS` (R194): every pixel off, redraw set even on a blank screen (90_conflicts.md C6). -/
def execCls (s : State) : Host.Outcome State Fault Refusal :=
  .next { s with fb := Grid.blank, redraw := true }.advance

/-- One set bit of the sprite, at column `x` of row `y`: clipped at the right edge; VF becomes 1 when the pixel is on, and
the pixel is toggled (R196 step 4, R197). -/
def State.plot (s : State) (x : Nat) (y : Fin 32) : State :=
  if h : x < 64 then
    let t := if s.fb[x][y] then s.setV VF 1 else s
    t.toggle ⟨x, h⟩ y
  else s

/-- One row byte at columns x0 .. x0+7, leftmost bit first (R195, R196 step 4). -/
def State.drawRow (s : State) (b : Byte) (x0 : Nat) (y : Fin 32) : State :=
  (List.range 8).foldl (fun t c => if spriteBit b c then t.plot (x0 + c) y else t) s

/-- The first `n` rows of the sprite at I; a row at or past the bottom edge is not drawn (R196 step 3, R198). -/
def State.drawRows (s : State) (x0 y0 n : Nat) : State :=
  (List.range n).foldl
    (fun t r => if h : y0 + r < 32 then t.drawRow (s.readByte (s.I.toNat + r)) x0 ⟨y0 + r, h⟩ else t) s

/-- The state after a draw that took `BoundsError` at address `addr`: `old` is the state before the instruction, `new` the
state when the failing check came. Each pixel, VF and redraw hold their old value or a value the instruction had written
(R258): for VF the 0 of step 2 or what the rows before left there (log entry 4). -/
def State.drawFault (old new : State) (addr : Nat) : State :=
  { old with
    fb := Vector.ofFn fun x : Fin 64 => Vector.ofFn fun y : Fin 32 =>
      oldOrNew (old.draws + 32 * x.val + y.val) old.fb[x][y] new.fb[x][y]
    v := old.v.set VF
      (oldOrNew (old.draws + 2048) (oldOrNew (old.draws + 2049) old.v[VF] 0) new.v[VF])
    redraw := oldOrNew (old.draws + 2050) old.redraw new.redraw
    draws := old.draws + 2051 }.takeFatal .boundsError (some addr)

/-- `DRW Vx,Vy,n` (R196): anchor from the old Vx and Vy (R201), VF cleared, then the rows. `BoundsError` for the first
drawn row outside memory; rows cut off by the bottom edge are not read. -/
def execDrw (x y : Reg) (n : BitVec 4) (s : State) : Host.Outcome State Fault Refusal :=
  let x0 := anchorX s.v[x]
  let y0 := anchorY s.v[y]
  match firstOutOfRange s.I.toNat (rowsDrawn y0 n.toNat) with
  | none => .next ((s.setV VF 0).drawRows x0 y0 n.toNat).advance
  | some r => .next (s.drawFault ((s.setV VF 0).drawRows x0 y0 r) (s.I.toNat + r))

end Sys2Proof.Machine
end

