-- ==== Sys2Proof/Machine/Index.lean ====
section
/-! DEFINITION. The index register and memory transfers (spec 43_index_memory.md). -/

namespace Sys2Proof.Machine

/-- `LD I,addr` (R170). -/
def execLdI (nnn : BitVec 12) (s : State) : Host.Outcome State Fault Refusal := .next (s.setI nnn.toNat).advance

/-- `ADD I,Vx` (R171): mod 4096, no flag (D11). -/
def execAddIVx (x : Reg) (s : State) : Host.Outcome State Fault Refusal :=
  .next (s.setI (s.I.toNat + s.v[x].toNat)).advance

/-- `LD F,Vx` (R172): the glyph's address; `OperandRangeError` when Vx > 15 (D13). -/
def execLdFVx (x : Reg) (s : State) : Host.Outcome State Fault Refusal :=
  match nibbleIndex s.v[x] with
  | none => .next (s.takeFatal .operandRangeError none)
  | some d => .next (s.setI (glyphAddr d)).advance

/-- `LD B,Vx` (R175): the three decimal digits to I, I+1, I+2. -/
def execLdBVx (x : Reg) (s : State) : Host.Outcome State Fault Refusal := .next (s.storeBlock (bcdDigits s.v[x]))

/-- `LD [I],Vx` (R176): V0..Vx to I..I+x. -/
def execStoreRegs (x : Reg) (s : State) : Host.Outcome State Fault Refusal := .next (s.storeBlock (registerBlock s x))

/-- `LD Vx,[I]` (R177): V0..Vx from I..I+x. -/
def execLoadRegs (x : Reg) (s : State) : Host.Outcome State Fault Refusal := .next (s.loadBlock (x.val + 1))

end Sys2Proof.Machine
end

