-- ==== Sys2Proof/Machine/TimersKeys.lean ====
section
/-! DEFINITION. The timer and key instructions and the turn of the key wait (spec 45_timers_keys.md). -/

namespace Sys2Proof.Machine

/-- `LD Vx,DT` (R222). -/
def execLdVxDT (x : Reg) (s : State) : Host.Outcome State Fault Refusal := .next (s.setV x s.dt).advance

/-- `LD DT,Vx` (R223). -/
def execLdDTVx (x : Reg) (s : State) : Host.Outcome State Fault Refusal := .next { s with dt := s.v[x] }.advance

/-- `LD ST,Vx` (R224). -/
def execLdSTVx (x : Reg) (s : State) : Host.Outcome State Fault Refusal := .next { s with st := s.v[x] }.advance

/-- `SKP Vx` (R225): `OperandRangeError` when Vx > 15 (R227, D12). -/
def execSkp (x : Reg) (s : State) : Host.Outcome State Fault Refusal :=
  match nibbleIndex s.v[x] with
  | none => .next (s.takeFatal .operandRangeError none)
  | some k => .next (s.skipIf s.key[k])

/-- `SKNP Vx` (R226): `OperandRangeError` when Vx > 15 (R227, D12). -/
def execSknp (x : Reg) (s : State) : Host.Outcome State Fault Refusal :=
  match nibbleIndex s.v[x] with
  | none => .next (s.takeFatal .operandRangeError none)
  | some k => .next (s.skipIf (!s.key[k]))

/-- `LD Vx,K` (R230): parks the engine; pc is held and no key is tested (D14). -/
def execLdVxK (x : Reg) (s : State) : Host.Outcome State Fault Refusal := .next { s with wait := some x }

/-- The wait turn (R231): nothing while no key is pressed; else a pressed key goes to Vx, the wait ends and pc moves past
the FX0A. With several keys pressed the stored one is a free choice among them (D15). -/
def State.waitTurn (s : State) (x : Reg) : State :=
  match pressedKeys s with
  | [] => s
  | k :: ks =>
    { s.setV x (BitVec.ofNat 8 (drawKey s.draws k ks).val) with wait := none, draws := s.draws + 1 }.advance

end Sys2Proof.Machine
end

