-- ==== Sys2Proof/Machine/Engine.lean ====
section
/-! DEFINITION. The step engine (spec 40_step_engine.md): fetch, dispatch, the halted and waiting steps, what a step reports
to the host, and the end of a run (R293). -/

namespace Sys2Proof.Machine

/-- `fetch()` (R101): the big-endian word at pc, or the out-of-range address pc + 1, computed exactly. -/
def State.fetch (s : State) : Except Nat Word :=
  if Config.memSize ≤ s.pc.toNat + 1 then .error (s.pc.toNat + 1)
  else .ok (wordOfBytes (s.readByte s.pc.toNat) (s.readByte (s.pc.toNat + 1)))

/-- A step that is neither halted nor waiting (R100): fetch, decode, then the instruction's rule or the report of an unknown
word (R105). A fetch out of range takes `BoundsError` (R101, R257). -/
def State.fetchDecodeExecute (s : State) : Host.Outcome State Fault Refusal :=
  match s.fetch with
  | .error a => .next (s.takeFatal .boundsError (some a))
  | .ok w =>
    match decode w with
    | none => .next (s.reportUnknown w)
    | some i => exec i s

/-- `step()` (R100): halted first (R106), then the wait (R107), then fetch (R259). The first step ends the boot phase
(R283). -/
def engineStep (s : State) : Host.Outcome State Fault Refusal :=
  match s.halted with
  | some _ => .next s
  | none =>
    match s.wait with
    | some x => .next (s.waitTurn x)
    | none => s.leaveBoot.fetchDecodeExecute

/-- What a step reports to the host (R108). -/
inductive StepReport where
  /-- One instruction executed normally. -/
  | ran
  /-- An unknown word was executed as R105 says. -/
  | reported
  /-- A wait turn found no key pressed (R231). -/
  | waiting
  /-- A wait turn stored a key (R231). -/
  | resumed
  /-- A fatal error was raised and the block is now halted (R257). -/
  | fatal (kind : ErrorKind)
  /-- The block was already halted (R106). -/
  | halted
  deriving DecidableEq, Repr

/-- The report of executing an instruction that ended in this outcome; `none` where the step has no next state. -/
def outcomeReport : Host.Outcome State Fault Refusal → Option StepReport
  | .next t => some (match t.halted with
    | some f => .fatal f.kind
    | none => .ran)
  | .fault _ => none
  | .refused _ => none

/-- The report of a step taken in state `s` (R100, R108). -/
def stepReport (s : State) : Option StepReport :=
  match s.halted with
  | some _ => some .halted
  | none =>
    match s.wait with
    | some _ => some (if (pressedKeys s).isEmpty then .waiting else .resumed)
    | none =>
      match s.leaveBoot.fetch with
      | .error _ => some (.fatal .boundsError)
      | .ok w =>
        match decode w with
        | none => some .reported
        | some i => outcomeReport (exec i s.leaveBoot)

/-- The state in which the next step fetches: neither halted nor waiting, and with both bytes of the word at pc inside
memory; where they are not, pc is the entry point. -/
def State.readyToFetch (s : State) : State :=
  { s with
    halted := none
    wait := none
    pc := if s.pc.toNat + 1 < Config.memSize then s.pc else Config.pcReset }

/-- The two bytes of `w` at pc, the more significant first (R52). -/
def State.placeWord (s : State) (w : Word) : State :=
  { s with mem := Memory.storeBytes s.mem s.pc.toNat (bytesOfWord w) }

/-- The word at pc is a JP to its own address, and the block is neither halted nor waiting (R293). -/
def State.atSelfJump (s : State) : Bool :=
  match s.halted, s.wait, s.fetch with
  | none, none, .ok w => decode w == some (.jp (s.pc.setWidth 12)) && decide (s.pc.toNat < Config.memSize)
  | _, _, _ => false

/-- The outcomes of a run (R293). -/
inductive RunState where
  /-- A JP to its own address: the normal end. -/
  | normalEnd
  /-- `halted = some f`: never a normal end. -/
  | fault (f : FaultRecord)
  /-- `wait = some x`: not an end. -/
  | wait (x : Reg)
  /-- Any other state: the run is still going. -/
  | going
  deriving DecidableEq, Repr

/-- Where a run stands (R293). -/
def State.runState (s : State) : RunState :=
  match s.halted, s.wait with
  | some f, _ => .fault f
  | none, some x => .wait x
  | none, none => if s.atSelfJump then .normalEnd else .going

end Sys2Proof.Machine
end

