-- ==== Sys2Proof/Machine/Transactions.lean ====
section
/-! DEFINITION. The host's transactions (spec R40, R289). Each is one indivisible change of the state (R41); the host
chooses their order (R7). `step` is the engine's; the others are the host's. -/

namespace Sys2Proof.Machine

/-- The transactions of R40. A load's source is the bytes read, or `none` when it cannot be read (R283). -/
inductive Transaction where
  | reset
  | load (src : Option (List Byte))
  | step
  | tick
  | setKey (k : Reg) (b : Bool)
  | clearRedraw
  | snapshot
  deriving DecidableEq, Repr

/-- What the host gets back (R289). -/
inductive Reply where
  | done
  /-- A load that succeeded (R285). -/
  | loaded
  /-- A load that failed and changed nothing (R284, R286). -/
  | loadFailed (e : ErrorKind)
  /-- What a step reports (R108). -/
  | stepped (r : StepReport)
  /-- The grid and the redraw flag (R191). -/
  | frame (fb : Grid) (redraw : Bool)
  deriving DecidableEq, Repr

/-- `reset()` in any state (R280). The model's own draw counter runs on, so that no free value is drawn twice
(log entry 10). -/
def State.hostReset (s : State) : State := { State.reset with draws := s.draws }

/-- A decrement that stops at 0 (R220). -/
def countDown (b : Byte) : Byte := if b = 0 then 0 else b - 1

/-- `tick()` (R220): both timers count down, nothing else changes. -/
def State.tick (s : State) : State := { s with dt := countDown s.dt, st := countDown s.st }

/-- `set_key(k, b)` (R221). -/
def State.setKey (s : State) (k : Reg) (b : Bool) : State := { s with key := s.key.set k b }

/-- `clear_redraw()` (R192). -/
def State.clearRedraw (s : State) : State := { s with redraw := false }

/-- The bytes of a ROM at 0x200, 0x201, ..., every other byte untouched (R285). -/
def State.loadRom (s : State) (bytes : List Byte) : State :=
  { s with mem := Memory.storeBytes s.mem Config.programBase bytes }

/-- `load(src)` in the boot phase: the state and the reply (R284–R287). A failed load changes nothing. -/
def State.hostLoad (s : State) : Option (List Byte) → State × Reply
  | none => (s, .loadFailed .sourceUnavailable)
  | some bytes =>
    if bytes.length ≤ Config.romMax then (s.loadRom bytes, .loaded) else (s, .loadFailed .capacityExceeded)

/-- The step's next state with its report, or the step's stop. -/
def State.hostStep (s : State) : Host.Outcome (State × Reply) Fault Refusal :=
  match step s, stepReport s with
  | .next t, some r => .next (t, .stepped r)
  | .next t, none => .next (t, .done)
  | .fault f, _ => .fault f
  | .refused r, _ => .refused r

/-- One transaction (R40). `load` outside the boot phase has no move (R283, D26). -/
def transact (s : State) : Transaction → Host.Outcome (State × Reply) Fault Refusal
  | .reset => .next (s.hostReset, .done)
  | .load src => if s.boot then .next (s.hostLoad src) else .refused .loadOutsideBoot
  | .step => s.hostStep
  | .tick => .next (s.tick, .done)
  | .setKey k b => .next (s.setKey k b, .done)
  | .clearRedraw => .next (s.clearRedraw, .done)
  | .snapshot => .next (s, .frame s.fb s.redraw)

end Sys2Proof.Machine
end

