-- ==== Sys2Proof/Safety.lean ====
section
/-! DEFINITION. The terms the statements use: a safe state, the invariant of the machine, and frames (what an instruction
leaves unchanged). -/

namespace Sys2Proof.Machine

/-- No fatal error has been raised since reset (R257). -/
def State.safe (s : State) : Prop := s.halted = none

/-- What a fault record of R36 may hold: a fatal kind (R250), the address of the instruction at which pc still stands
(R258), and an offending address for `BoundsError` only; that address is 0x1000, the first one outside memory (R55). -/
structure FaultRecord.Legal (f : FaultRecord) (s : State) : Prop where
  fatal : f.kind.severity = .fatal
  pc : f.pc = s.pc
  addr : f.addr = if f.kind = .boundsError then some 4096 else none

/-- The invariant of the machine: the memory is canonical, every field is in its legal range (R38), the fault record is
legal, halted and waiting exclude each other (R259, vector X9), a wait stands at its FX0A (R230), and the boot phase is over once a
step has halted or parked the block (R283). -/
structure State.Inv (s : State) : Prop where
  mem : Memory.wf s.mem = true
  pc : s.pc.toNat < 4096
  I : s.I.toNat < 4096
  stack : ∀ k : Fin 16, s.stack[k].toNat < 4096
  diag : ∀ r ∈ s.diag, r.pc.toNat < 4096 ∧ decode r.word = none
  record : ∀ f, s.halted = some f → f.Legal s
  exclusive : s.halted = none ∨ s.wait = none
  parked : ∀ x, s.wait = some x → ∃ w, s.fetch = .ok w ∧ decode w = some (.ldVxK x)
  boot : s.boot = true → s.halted = none ∧ s.wait = none

/-- The parts of the state an instruction may name as changed, besides the V registers and pc. -/
inductive Part where
  | index
  | memory
  | stack
  | delayTimer
  | soundTimer
  | screen
  | redraw
  | wait
  | halted
  | diag
  deriving DecidableEq, Repr

/-- The frame of an instruction: V registers outside `regs` and all state outside `parts` is unchanged; pc may change. The
key array and the boot phase are in every frame, and memory is compared byte by byte. -/
structure Unchanged (parts : List Part) (regs : List Reg) (s t : State) : Prop where
  registers : ∀ r : Reg, r ∉ regs → t.v[r] = s.v[r]
  index : Part.index ∉ parts → t.I = s.I
  memory : Part.memory ∉ parts → ∀ a, t.readByte a = s.readByte a
  stack : Part.stack ∉ parts → t.sp = s.sp ∧ t.stack = s.stack
  delayTimer : Part.delayTimer ∉ parts → t.dt = s.dt
  soundTimer : Part.soundTimer ∉ parts → t.st = s.st
  screen : Part.screen ∉ parts → t.fb = s.fb
  redraw : Part.redraw ∉ parts → t.redraw = s.redraw
  wait : Part.wait ∉ parts → t.wait = s.wait
  halted : Part.halted ∉ parts → t.halted = s.halted
  diag : Part.diag ∉ parts → t.diag = s.diag
  key : t.key = s.key
  boot : t.boot = s.boot

/-- `next(pc)` (R14). -/
def nextPc (s : State) : Word := BitVec.ofNat 16 ((s.pc.toNat + 2) % 4096)

/-- `skip(pc)` (R14). -/
def skipPc (s : State) : Word := BitVec.ofNat 16 ((s.pc.toNat + 4) % 4096)

end Sys2Proof.Machine

namespace Sys2Proof

open Sys2Proof.Machine (VF Part)

/-- The V registers an instruction may write: the destination it names, and VF where the instruction writes it as a flag
(R23). The wait turn of LD Vx,K is not `exec`'s (R231). -/
def Instr.mayWrite : Instr → List Reg
  | .ldByte x _ | .addByte x _ | .ldReg x _ | .or x _ | .and x _ | .xor x _ | .rnd x _ | .ldVxDT x => [x]
  | .addReg x _ | .sub x _ | .shr x _ | .subn x _ | .shl x _ => [x, VF]
  | .drw _ _ _ => [VF]
  | .loadRegs x => (List.finRange 16).filter (fun r => decide (r ≤ x))
  | .cls | .ret | .jp _ | .call _ | .jpV0 _ | .seByte _ _ | .sneByte _ _ | .seReg _ _ | .sneReg _ _ | .ldI _
  | .skp _ | .sknp _ | .ldVxK _ | .ldDTVx _ | .ldSTVx _ | .addIVx _ | .ldFVx _ | .ldBVx _ | .storeRegs _ => []

/-- The parts of the state an instruction may change besides V registers and pc, taking a fatal error included (R257). -/
def Instr.mayChange : Instr → List Part
  | .cls => [.screen, .redraw]
  | .drw _ _ _ => [.screen, .redraw, .halted]
  | .ret | .call _ => [.stack, .halted]
  | .ldI _ | .addIVx _ => [.index]
  | .ldFVx _ => [.index, .halted]
  | .ldBVx _ | .storeRegs _ => [.memory, .halted]
  | .loadRegs _ | .skp _ | .sknp _ => [.halted]
  | .ldVxK _ => [.wait]
  | .ldDTVx _ => [.delayTimer]
  | .ldSTVx _ => [.soundTimer]
  | .jp _ | .jpV0 _ | .seByte _ _ | .sneByte _ _ | .seReg _ _ | .sneReg _ _ | .ldByte _ _ | .addByte _ _
  | .ldReg _ _ | .or _ _ | .and _ _ | .xor _ _ | .addReg _ _ | .sub _ _ | .shr _ _ | .subn _ _ | .shl _ _
  | .rnd _ _ | .ldVxDT _ => []

/-- The number of bytes an instruction stores from I on: 3 for LD B,Vx (R175), x + 1 for LD [I],Vx (R176), else none (R50). -/
def Instr.storedBytes : Instr → Nat
  | .ldBVx _ => 3
  | .storeRegs x => x.val + 1
  | .cls | .ret | .jp _ | .call _ | .jpV0 _ | .seByte _ _ | .sneByte _ _ | .seReg _ _ | .sneReg _ _ | .ldByte _ _
  | .addByte _ _ | .ldReg _ _ | .or _ _ | .and _ _ | .xor _ _ | .addReg _ _ | .sub _ _ | .shr _ _ | .subn _ _
  | .shl _ _ | .ldI _ | .rnd _ _ | .drw _ _ _ | .skp _ | .sknp _ | .ldVxDT _ | .ldVxK _ | .ldDTVx _ | .ldSTVx _
  | .addIVx _ | .ldFVx _ | .loadRegs _ => 0

end Sys2Proof

namespace Sys2Proof.Machine

/-- The pixel at column c and row r lies under a set bit of the sprite of `rows` rows at I whose anchor is (x0, y0); its
bits are the row bytes', leftmost first, and what lies past the right edge is no pixel (R195–R198). -/
def State.spriteCovers (s : State) (x0 y0 rows : Nat) (c : Fin 64) (r : Fin 32) : Bool :=
  decide (x0 ≤ c.val ∧ c.val < x0 + 8 ∧ y0 ≤ r.val ∧ r.val < y0 + rows) &&
    (s.readByte (s.I.toNat + (r.val - y0))).getMsbD (c.val - x0)

/-- Every drawn row of a DRW lies in memory: DRW runs without `BoundsError` exactly then (R196, R201). -/
def State.spriteInMemory (s : State) (y0 n : Nat) : Prop := ∀ r, r < n → y0 + r < 32 → s.I.toNat + r < 4096

end Sys2Proof.Machine
end

