-- ==== Sys2Proof/Certificates/Slice0/Obligations.lean ====
section
/-! DEFINITION. The statements for the provers. Each names the rules of spec/ it formalises; `Unchanged parts regs s t` is the
frame (Sys2Proof/Safety.lean). -/

open Sys2Proof Sys2Proof.Machine

/-! ### Encoding -/

/-- Words written out from the patterns of R75–R80 (vectors E1 to E27 of 95_test_vectors.md). The patterns are the spec's
general knowledge (D2; log entry 8). -/
def Obligations.SampleWordsDecode : Prop :=
  decode 0x00E0 = some .cls ∧ decode 0x1ABC = some (.jp 0xABC) ∧ decode 0x3A7F = some (.seByte 0xA 0x7F) ∧
  decode 0x5120 = some (.seReg 1 2) ∧ decode 0x5121 = none ∧ decode 0x812E = some (.shl 1 2) ∧ decode 0x8128 = none ∧
  decode 0xD000 = some (.drw 0 0 0) ∧ decode 0xE1A1 = some (.sknp 1) ∧ decode 0xFF65 = some (.loadRegs 0xF) ∧
  decode 0xFFFF = none

/-- R74 (the spec's derivation from R75–R80): decode of encode gives the instruction back, with every operand at every
value. -/
def Obligations.DecodeOfEncode : Prop := ∀ i : Instr, decode (encode i) = some i

/-- R74: a word that decodes to an instruction is that instruction's word, so no bit of a known word is dropped. -/
def Obligations.EncodeOfDecode : Prop := ∀ (w : Word) (i : Instr), decode w = some i → encode i = w

/-- R75–R80: every pattern of the opcode map, and every word of each class outside its patterns is `Unknown`. The patterns
and the strict decoding are the spec's decisions D2, D3 and D4 (log entry 8). -/
def Obligations.OpcodeMapByClass : Prop :=
  -- R75, class 0
  decode 0x00E0 = some .cls ∧ decode 0x00EE = some .ret ∧
  (∀ nnn : BitVec 12, nnn ≠ 0x0E0 → nnn ≠ 0x0EE → decode (0x0#4 ++ nnn) = none) ∧
  -- R76, the ten classes without a selector
  (∀ nnn : BitVec 12, decode (0x1#4 ++ nnn) = some (.jp nnn) ∧ decode (0x2#4 ++ nnn) = some (.call nnn) ∧
    decode (0xA#4 ++ nnn) = some (.ldI nnn) ∧ decode (0xB#4 ++ nnn) = some (.jpV0 nnn)) ∧
  (∀ (x : BitVec 4) (nn : Byte),
    decode (0x3#4 ++ x ++ nn) = some (.seByte x.toFin nn) ∧ decode (0x4#4 ++ x ++ nn) = some (.sneByte x.toFin nn) ∧
    decode (0x6#4 ++ x ++ nn) = some (.ldByte x.toFin nn) ∧ decode (0x7#4 ++ x ++ nn) = some (.addByte x.toFin nn) ∧
    decode (0xC#4 ++ x ++ nn) = some (.rnd x.toFin nn)) ∧
  (∀ x y n : BitVec 4, decode (0xD#4 ++ x ++ y ++ n) = some (.drw x.toFin y.toFin n)) ∧
  -- R77, classes 5 and 9
  (∀ x y n : BitVec 4,
    decode (0x5#4 ++ x ++ y ++ n) = (if n = 0 then some (.seReg x.toFin y.toFin) else none) ∧
    decode (0x9#4 ++ x ++ y ++ n) = (if n = 0 then some (.sneReg x.toFin y.toFin) else none)) ∧
  -- R78, class 8
  (∀ x y n : BitVec 4, decode (0x8#4 ++ x ++ y ++ n) =
    if n = 0x0 then some (.ldReg x.toFin y.toFin) else if n = 0x1 then some (.or x.toFin y.toFin)
    else if n = 0x2 then some (.and x.toFin y.toFin) else if n = 0x3 then some (.xor x.toFin y.toFin)
    else if n = 0x4 then some (.addReg x.toFin y.toFin) else if n = 0x5 then some (.sub x.toFin y.toFin)
    else if n = 0x6 then some (.shr x.toFin y.toFin) else if n = 0x7 then some (.subn x.toFin y.toFin)
    else if n = 0xE then some (.shl x.toFin y.toFin) else none) ∧
  -- R79, class E
  (∀ (x : BitVec 4) (nn : Byte), decode (0xE#4 ++ x ++ nn) =
    if nn = 0x9E then some (.skp x.toFin) else if nn = 0xA1 then some (.sknp x.toFin) else none) ∧
  -- R80, class F
  (∀ (x : BitVec 4) (nn : Byte), decode (0xF#4 ++ x ++ nn) =
    if nn = 0x07 then some (.ldVxDT x.toFin) else if nn = 0x0A then some (.ldVxK x.toFin)
    else if nn = 0x15 then some (.ldDTVx x.toFin) else if nn = 0x18 then some (.ldSTVx x.toFin)
    else if nn = 0x1E then some (.addIVx x.toFin) else if nn = 0x29 then some (.ldFVx x.toFin)
    else if nn = 0x33 then some (.ldBVx x.toFin) else if nn = 0x55 then some (.storeRegs x.toFin)
    else if nn = 0x65 then some (.loadRegs x.toFin) else none)

/-! ### The step engine -/

/-- R101: the fetch reads the big-endian word at pc, and faults with address pc + 1 exactly when that is outside memory. -/
def Obligations.FetchReadsWordAtPc : Prop := ∀ s : State,
  (4096 ≤ s.pc.toNat + 1 → s.fetch = .error (s.pc.toNat + 1)) ∧
  (s.pc.toNat + 1 < 4096 → ∃ w, s.fetch = .ok w ∧
    w.toNat = (s.readByte s.pc.toNat).toNat * 256 + (s.readByte (s.pc.toNat + 1)).toNat)

/-- R100, R103: a step runs the instruction its bytes decode to; around `exec` it only ends the model's boot phase (log
entry 9). -/
def Obligations.StepRunsDecodedInstruction : Prop := ∀ (s : State) (i : Instr),
  s.halted = none → s.wait = none → s.pc.toNat + 1 < 4096 →
  decode (s.readByte s.pc.toNat ++ s.readByte (s.pc.toNat + 1)) = some i → step s = exec i { s with boot := false }

/-- R105: an unknown word is reported and pc advances; nothing else changes but the boot phase (log entry 9). The record
in diag and the report are the spec's decision D30. -/
def Obligations.StepReportsUnknownWord : Prop := ∀ (s : State) (w : Word),
  s.halted = none → s.wait = none → s.fetch = .ok w → decode w = none →
  step s = .next { s with boot := false, diag := s.diag ++ [⟨w, s.pc⟩], pc := nextPc s } ∧
  stepReport s = some .reported

/-- R257, R258: a fetch outside memory takes `BoundsError`; nothing else changes but the boot phase (log entry 9). What a
fatal error leaves is the spec's decision D17 (log entry 5). -/
def Obligations.StepFetchOutOfRange : Prop := ∀ s : State,
  s.halted = none → s.wait = none → 4096 ≤ s.pc.toNat + 1 →
  step s = .next { s with boot := false, halted := some ⟨.boundsError, s.pc, some (s.pc.toNat + 1)⟩ } ∧
  stepReport s = some (.fatal .boundsError)

/-- R106: a step while halted changes nothing, and no transaction but reset leaves the halted state (the spec's decisions
D17 and D27; log entry 5). -/
def Obligations.HaltedStepDoesNothing : Prop := ∀ (s : State) (f : FaultRecord), s.halted = some f →
  step s = .next s ∧ stepReport s = some .halted ∧
  ∀ (tr : Transaction) (t : State) (r : Reply), tr ≠ .reset → transact s tr = .next (t, r) → t.halted = some f

/-- R107, R231: the wait turn. Without a pressed key nothing changes; with one, a pressed key is stored and pc moves on. The
mechanism and the free choice among the pressed keys are the spec's decisions D14 and D15 (log entries 3 and 19). -/
def Obligations.WaitTurnStoresPressedKey : Prop := ∀ (s : State) (x : Reg), s.halted = none → s.wait = some x →
  ((∀ k : Reg, s.key[k] = false) → step s = .next s ∧ stepReport s = some .waiting) ∧
  ((∃ k : Reg, s.key[k] = true) → ∃ (t : State) (k : Reg), step s = .next t ∧ stepReport s = some .resumed ∧
    s.key[k] = true ∧ t.v[x] = BitVec.ofNat 8 k.val ∧ t.wait = none ∧ t.pc = nextPc s ∧ Unchanged [.wait] [x] s t)

/-- R100, R108: every step answers a next state, and the report agrees with it. The reports are the spec's decision D30, and
that a fatal error is a next state is log entry 5. -/
def Obligations.StepAnswersAndReports : Prop := ∀ s : State, ∃ (t : State) (r : StepReport),
  step s = .next t ∧ stepReport s = some r ∧
  (r = .halted ↔ s.halted ≠ none) ∧
  (∀ k, r = .fatal k ↔ s.halted = none ∧ ∃ f, t.halted = some f ∧ f.kind = k) ∧
  (r = .reported ↔ t.diag ≠ s.diag) ∧
  (r = .waiting ↔ s.halted = none ∧ s.wait ≠ none ∧ ∀ k : Reg, s.key[k] = false) ∧
  (r = .resumed ↔ s.halted = none ∧ s.wait ≠ none ∧ ∃ k : Reg, s.key[k] = true)

/-- Every instruction completes: `exec` answers a next state for every instruction in every state (R103, R257). -/
def Obligations.ExecAnswersNextState : Prop := ∀ (i : Instr) (s : State), ∃ t, exec i s = .next t

/-- R109: a step never changes the keys, never clears redraw, and changes a timer only by writing a register to it. -/
def Obligations.StepLeavesTimersAndKeys : Prop := ∀ s t : State, step s = .next t →
  t.key = s.key ∧ (s.redraw = true → t.redraw = true) ∧
  (t.dt ≠ s.dt → ∃ w x, s.fetch = .ok w ∧ decode w = some (.ldDTVx x) ∧ t.dt = s.v[x]) ∧
  (t.st ≠ s.st → ∃ w x, s.fetch = .ok w ∧ decode w = some (.ldSTVx x) ∧ t.st = s.v[x])

/-- R293 (the spec's decision D40): at a self-jump a step changes nothing but the model's boot phase (log entry 9), and the
run stays at its normal end. -/
def Obligations.SelfJumpChangesNothing : Prop := ∀ s : State, s.runState = .normalEnd →
  step s = .next { s with boot := false } ∧ ({ s with boot := false } : State).runState = .normalEnd ∧
  s.pc.toNat + 1 < 4096 ∧
  (s.readByte s.pc.toNat).toNat * 256 + (s.readByte (s.pc.toNat + 1)).toNat = 0x1000 + s.pc.toNat

/-! ### Reset, load and the other host transactions -/

/-- R281: what the document says `reset()` leaves, from any state. The font table itself is the spec's general knowledge
(D32; log entry 7). -/
def Obligations.ResetLeavesDocumentedValues : Prop := ∀ s : State, ∃ t, transact s .reset = .next (t, .done) ∧
  (∀ a, a < 0x050 ∨ 0x09F < a → t.readByte a = 0) ∧ (∀ k, (h : k < 80) → t.readByte (0x050 + k) = font[k]) ∧
  (∀ r : Reg, t.v[r] = 0) ∧ t.I = 0 ∧ t.pc = 0x200 ∧ t.sp = 0

/-- R280: every other field after `reset()`, from any state. The values of redraw, wait, halted, diag, the stack and the
keys are the spec's reading of "zero everything" (D24; log entry 6); DT and ST are its OPEN parameters (R282, D23; log
entry 2); the draw counter is the model's own (log entry 10). -/
def Obligations.ResetLeavesEveryField : Prop := ∀ s : State, ∃ t, transact s .reset = .next (t, .done) ∧
  t = { State.reset with draws := s.draws } ∧ (∀ k : Fin 16, t.stack[k] = 0) ∧
  t.dt = Config.dtReset ∧ t.st = Config.stReset ∧ (∀ k : Reg, t.key[k] = false) ∧
  (∀ (x : Fin 64) (y : Fin 32), t.fb[x][y] = false) ∧
  t.redraw = false ∧ t.wait = none ∧ t.halted = none ∧ t.diag = [] ∧ t.boot = true

/-- R284, R285, R286: the three outcomes of a load in the boot phase. -/
def Obligations.LoadCopiesOrFails : Prop := ∀ s : State, s.boot = true → Memory.wf s.mem = true →
  transact s (.load none) = .next (s, .loadFailed .sourceUnavailable) ∧
  ∀ bytes : List Byte,
    (3584 < bytes.length → transact s (.load (some bytes)) = .next (s, .loadFailed .capacityExceeded)) ∧
    (bytes.length ≤ 3584 → ∃ t, transact s (.load (some bytes)) = .next (t, .loaded) ∧ t = { s with mem := t.mem } ∧
      (∀ k, (h : k < bytes.length) → t.readByte (0x200 + k) = bytes[k]) ∧
      ∀ a, a < 0x200 ∨ 0x200 + bytes.length ≤ a → t.readByte a = s.readByte a)

/-- R283 (the spec's decision D26): load is admitted only between reset and the first step after it. The bit that says so is
the model's (log entry 9). -/
def Obligations.LoadOnlyInBootPhase : Prop :=
  State.reset.boot = true ∧
  (∀ s src, s.boot = false → transact s (.load src) = .refused .loadOutsideBoot) ∧
  (∀ s src, s.boot = true → ∃ t r, transact s (.load src) = .next (t, r)) ∧
  (∀ s t tr r, tr ≠ .step → tr ≠ .reset → transact s tr = .next (t, r) → t.boot = s.boot) ∧
  (∀ s t r, transact s .reset = .next (t, r) → t.boot = true) ∧
  ∀ s t r, s.Inv → transact s .step = .next (t, r) → t.boot = false

/-- R220: a tick takes both timers down by 1, floored at 0, and changes nothing else; that it does so in every state is the
spec's decision D36. -/
def Obligations.TickCountsDown : Prop := ∀ s : State, ∃ t, transact s .tick = .next (t, .done) ∧
  t.dt.toNat = s.dt.toNat - 1 ∧ t.st.toNat = s.st.toNat - 1 ∧ t = { s with dt := t.dt, st := t.st }

/-- R191, R192: snapshot returns the grid and redraw and changes nothing; clear_redraw clears redraw alone. -/
def Obligations.SnapshotReadsClearRedrawClears : Prop := ∀ s : State,
  transact s .snapshot = .next (s, .frame s.fb s.redraw) ∧
  ∃ t, transact s .clearRedraw = .next (t, .done) ∧ t.redraw = false ∧ t = { s with redraw := t.redraw }

/-- R221: set_key writes one key and nothing else, in every state (the spec's decisions D25 and D35: the host may do so
between any two steps, and there is no event queue). -/
def Obligations.SetKeyWritesOneKey : Prop := ∀ (s : State) (k : Reg) (b : Bool),
  ∃ t, transact s (.setKey k b) = .next (t, .done) ∧ t.key[k] = b ∧
    (∀ j : Reg, j ≠ k → t.key[j] = s.key[j]) ∧ t = { s with key := t.key }

/-! ### The invariant -/

/-- The reset state meets the invariant of Sys2Proof/Safety.lean. -/
def Obligations.ResetMeetsInvariant : Prop := State.reset.Inv

/-- Every step keeps the invariant: memory canonical, pc and I in 0..4095 (R25, R26), stack entries in 0..4095 (R27), fault
record legal (R36, R257), halted and waiting exclusive, a wait at its FX0A (R230). -/
def Obligations.StepKeepsInvariant : Prop := ∀ s t : State, s.Inv → step s = .next t → t.Inv

/-- Every transaction of the host keeps the invariant. -/
def Obligations.TransactionKeepsInvariant : Prop :=
  ∀ (s t : State) (tr : Transaction) (r : Reply), s.Inv → transact s tr = .next (t, r) → t.Inv

/-! ### Control transfer -/

/-- R120, R29, R253: RET, and `StackUnderflow` at sp = 0. A stack entry is in 0..4095 in every state that meets the
invariant. -/
def Obligations.RetPopsOrUnderflows : Prop := ∀ s : State,
  (∀ h : 0 < s.sp.val, (s.stack[s.sp.val - 1]'(by omega)).toNat < 4096 → ∃ t, exec .ret s = .next t ∧
    t.pc = s.stack[s.sp.val - 1]'(by omega) ∧ t.sp.val = s.sp.val - 1 ∧ t.stack = s.stack ∧
    Unchanged [.stack] [] s t) ∧
  (s.sp.val = 0 → exec .ret s = .next { s with halted := some ⟨.stackUnderflow, s.pc, none⟩ })

/-- R121: JP addr; a target of 0xFFF makes the next fetch fault. -/
def Obligations.JpSetsPc : Prop := ∀ (nnn : BitVec 12) (s : State), ∃ t, exec (.jp nnn) s = .next t ∧
  t.pc.toNat = nnn.toNat ∧ Unchanged [] [] s t ∧ (nnn = 0xFFF → t.fetch = .error 0x1000)

/-- R122, R28, R252: CALL pushes next(pc) and jumps; `StackOverflow` at sp = 16 writes nothing but the fault record. -/
def Obligations.CallPushesOrOverflows : Prop := ∀ (nnn : BitVec 12) (s : State),
  (∀ h : s.sp.val < 16, ∃ t, exec (.call nnn) s = .next t ∧ t.pc.toNat = nnn.toNat ∧ t.sp.val = s.sp.val + 1 ∧
    t.stack[s.sp.val] = nextPc s ∧ (∀ k : Fin 16, k.val ≠ s.sp.val → t.stack[k] = s.stack[k]) ∧
    Unchanged [.stack] [] s t) ∧
  (s.sp.val = 16 → exec (.call nnn) s = .next { s with halted := some ⟨.stackOverflow, s.pc, none⟩ })

/-- R28, R29: a CALL and then a RET come back to the instruction after the CALL with the stack as it was. -/
def Obligations.CallThenRetReturns : Prop := ∀ (nnn : BitVec 12) (s : State), s.sp.val < 16 →
  ∃ t u, exec (.call nnn) s = .next t ∧ exec .ret t = .next u ∧ u.pc = nextPc s ∧ u.sp = s.sp ∧
    (∀ k : Fin 16, k.val ≠ s.sp.val → u.stack[k] = s.stack[k]) ∧ Unchanged [.stack] [] s u

/-- R123: JP V0,addr (the spec's decision D6; log entry 16). -/
def Obligations.JpV0AddsOffset : Prop := ∀ (nnn : BitVec 12) (s : State), ∃ t, exec (.jpV0 nnn) s = .next t ∧
  t.pc.toNat = (nnn.toNat + s.v[(0 : Reg)].toNat) % 4096 ∧ Unchanged [] [] s t

/-- R124–R127: the four compare-and-skip instructions. -/
def Obligations.SkipsOnCompare : Prop := ∀ (x y : Reg) (nn : Byte) (s : State),
  (∃ t, exec (.seByte x nn) s = .next t ∧ t.pc = (if s.v[x] = nn then skipPc s else nextPc s) ∧ Unchanged [] [] s t) ∧
  (∃ t, exec (.sneByte x nn) s = .next t ∧ t.pc = (if s.v[x] ≠ nn then skipPc s else nextPc s) ∧ Unchanged [] [] s t) ∧
  (∃ t, exec (.seReg x y) s = .next t ∧ t.pc = (if s.v[x] = s.v[y] then skipPc s else nextPc s) ∧ Unchanged [] [] s t) ∧
  (∃ t, exec (.sneReg x y) s = .next t ∧ t.pc = (if s.v[x] ≠ s.v[y] then skipPc s else nextPc s) ∧ Unchanged [] [] s t)

/-! ### Loads and the ALU -/

/-- R141, R142: LD Vx,byte and ADD Vx,byte; no flag. -/
def Obligations.ImmediateLoadAndAdd : Prop := ∀ (x : Reg) (nn : Byte) (s : State),
  (∃ t, exec (.ldByte x nn) s = .next t ∧ t.v[x] = nn ∧ t.pc = nextPc s ∧ Unchanged [] [x] s t) ∧
  (∃ t, exec (.addByte x nn) s = .next t ∧ t.v[x].toNat = (s.v[x].toNat + nn.toNat) % 256 ∧ t.pc = nextPc s ∧
    Unchanged [] [x] s t)

/-- R143–R146: LD Vx,Vy, OR, AND, XOR; no flag (the spec's decisions D5 and D8; log entries 16 and 17). -/
def Obligations.CopyAndLogic : Prop := ∀ (x y : Reg) (s : State),
  (∃ t, exec (.ldReg x y) s = .next t ∧ t.v[x] = s.v[y] ∧ t.pc = nextPc s ∧ Unchanged [] [x] s t) ∧
  (∃ t, exec (.or x y) s = .next t ∧ t.v[x] = s.v[x] ||| s.v[y] ∧ t.pc = nextPc s ∧ Unchanged [] [x] s t) ∧
  (∃ t, exec (.and x y) s = .next t ∧ t.v[x] = s.v[x] &&& s.v[y] ∧ t.pc = nextPc s ∧ Unchanged [] [x] s t) ∧
  (∃ t, exec (.xor x y) s = .next t ∧ t.v[x] = s.v[x] ^^^ s.v[y] ∧ t.pc = nextPc s ∧ Unchanged [] [x] s t)

/-- R147, R148: ADD Vx,Vy. VF holds the carry even when x = 0xF (the spec's decision D7; log entry 17); the operands are
the old values. -/
def Obligations.AddSetsCarry : Prop := ∀ (x y : Reg) (s : State), ∃ t, exec (.addReg x y) s = .next t ∧
  t.v[VF] = (if s.v[x].toNat + s.v[y].toNat > 255 then 1 else 0) ∧
  (x ≠ VF → t.v[x].toNat = (s.v[x].toNat + s.v[y].toNat) % 256) ∧ t.pc = nextPc s ∧ Unchanged [] [x, VF] s t

/-- R147, R149: SUB Vx,Vy. VF is not-borrow: 1 on equal operands, also when x = 0xF (D7; log entry 17). -/
def Obligations.SubSetsNotBorrow : Prop := ∀ (x y : Reg) (s : State), ∃ t, exec (.sub x y) s = .next t ∧
  t.v[VF] = (if s.v[y].toNat ≤ s.v[x].toNat then 1 else 0) ∧
  (x ≠ VF → (t.v[x].toNat : Int) = ((s.v[x].toNat : Int) - s.v[y].toNat) % 256) ∧ t.pc = nextPc s ∧
  Unchanged [] [x, VF] s t

/-- R147, R151: SUBN Vx,Vy, the operands the other way round (D7; log entry 17). -/
def Obligations.SubnSetsNotBorrow : Prop := ∀ (x y : Reg) (s : State), ∃ t, exec (.subn x y) s = .next t ∧
  t.v[VF] = (if s.v[x].toNat ≤ s.v[y].toNat then 1 else 0) ∧
  (x ≠ VF → (t.v[x].toNat : Int) = ((s.v[y].toNat : Int) - s.v[x].toNat) % 256) ∧ t.pc = nextPc s ∧
  Unchanged [] [x, VF] s t

/-- R147, R150, R152: SHR and SHL shift Vx in place by one, VF is the bit shifted out, and Y is not read (the spec's
decisions D7 and D9; log entry 17). -/
def Obligations.ShiftsSetShiftedOutBit : Prop := ∀ (x y : Reg) (s : State),
  (∃ t, (∀ y', exec (.shr x y') s = exec (.shr x y) s) ∧ exec (.shr x y) s = .next t ∧
    t.v[VF].toNat = s.v[x].toNat % 2 ∧ (x ≠ VF → t.v[x].toNat = s.v[x].toNat / 2) ∧ t.pc = nextPc s ∧
    Unchanged [] [x, VF] s t) ∧
  (∃ t, (∀ y', exec (.shl x y') s = exec (.shl x y) s) ∧ exec (.shl x y) s = .next t ∧
    t.v[VF].toNat = s.v[x].toNat / 128 ∧ (x ≠ VF → t.v[x].toNat = s.v[x].toNat * 2 % 256) ∧ t.pc = nextPc s ∧
    Unchanged [] [x, VF] s t)

/-- R153: RND masks a fresh free byte, whatever it is (the spec's decision D16; the model's `Config.freeByte`, log
entry 1). -/
def Obligations.RndMasksDrawnByte : Prop := ∀ (x : Reg) (nn : Byte) (s : State), ∃ t, exec (.rnd x nn) s = .next t ∧
  t.v[x] = Config.freeByte s.draws &&& nn ∧ t.draws = s.draws + 1 ∧ t.v[x] &&& ~~~nn = 0 ∧ t.pc = nextPc s ∧
  Unchanged [] [x] s t

/-! ### The index register and memory transfers -/

/-- R170, R171: LD I,addr and ADD I,Vx; no flag (the spec's decision D11; log entry 17). -/
def Obligations.IndexLoadAndAdd : Prop := ∀ (nnn : BitVec 12) (x : Reg) (s : State),
  (∃ t, exec (.ldI nnn) s = .next t ∧ t.I.toNat = nnn.toNat ∧ t.pc = nextPc s ∧ Unchanged [.index] [] s t) ∧
  (∃ t, exec (.addIVx x) s = .next t ∧ t.I.toNat = (s.I.toNat + s.v[x].toNat) % 4096 ∧ t.pc = nextPc s ∧
    Unchanged [.index] [] s t)

/-- R172: LD F,Vx gives the glyph's address; `OperandRangeError` when Vx > 15 (the spec's decision D13; log entry 18). -/
def Obligations.GlyphAddressOrRangeError : Prop := ∀ (x : Reg) (s : State),
  (s.v[x].toNat ≤ 15 → ∃ t, exec (.ldFVx x) s = .next t ∧ t.I.toNat = 0x050 + s.v[x].toNat * 5 ∧ t.pc = nextPc s ∧
    Unchanged [.index] [] s t) ∧
  (15 < s.v[x].toNat → exec (.ldFVx x) s = .next { s with halted := some ⟨.operandRangeError, s.pc, none⟩ })

/-- R175: LD B,Vx stores the three digits; every byte outside I..I+2 reads as before, and I stays (R173, the spec's decision
D10; log entry 17). -/
def Obligations.BcdStoresDigits : Prop := ∀ (x : Reg) (s : State), Memory.wf s.mem = true → s.I.toNat + 2 < 4096 →
  ∃ t, exec (.ldBVx x) s = .next t ∧
    (t.readByte s.I.toNat).toNat = s.v[x].toNat / 100 ∧
    (t.readByte (s.I.toNat + 1)).toNat = s.v[x].toNat / 10 % 10 ∧
    (t.readByte (s.I.toNat + 2)).toNat = s.v[x].toNat % 10 ∧
    (∀ a, a < s.I.toNat ∨ s.I.toNat + 3 ≤ a → t.readByte a = s.readByte a) ∧ t.pc = nextPc s ∧
    Unchanged [.memory] [] s t

/-- R176: LD [I],Vx stores V0..Vx at I..I+x; every byte outside reads as before, and I stays (R173, D10; log entry 17). -/
def Obligations.RegistersStored : Prop := ∀ (x : Reg) (s : State), Memory.wf s.mem = true → s.I.toNat + x.val < 4096 →
  ∃ t, exec (.storeRegs x) s = .next t ∧ (∀ r : Reg, r ≤ x → t.readByte (s.I.toNat + r.val) = s.v[r]) ∧
    (∀ a, a < s.I.toNat ∨ s.I.toNat + x.val + 1 ≤ a → t.readByte a = s.readByte a) ∧ t.pc = nextPc s ∧
    Unchanged [.memory] [] s t

/-- R177: LD Vx,[I] loads V0..Vx from I..I+x and leaves the registers above Vx, and I stays (R173, D10; log entry 17). -/
def Obligations.RegistersLoaded : Prop := ∀ (x : Reg) (s : State), s.I.toNat + x.val < 4096 →
  ∃ t, exec (.loadRegs x) s = .next t ∧ (∀ r : Reg, r ≤ x → t.v[r] = s.readByte (s.I.toNat + r.val)) ∧
    (∀ r : Reg, x < r → t.v[r] = s.v[r]) ∧ t.pc = nextPc s ∧
    Unchanged [] ((List.finRange 16).filter fun r => decide (r ≤ x)) s t

/-- R174, R257, R258: a store that reaches past 0xFFF takes `BoundsError` with address 0x1000, and each byte below it is the
old one or the one the instruction would have written (the spec's decision D17; log entry 4). -/
def Obligations.StoreFaultsPastMemory : Prop := ∀ (x : Reg) (s : State), Memory.wf s.mem = true → s.I.toNat < 4096 →
  (4096 ≤ s.I.toNat + 2 → ∃ t, exec (.ldBVx x) s = .next t ∧
    t.halted = some ⟨.boundsError, s.pc, some 0x1000⟩ ∧ t.pc = s.pc ∧ Unchanged [.memory, .halted] [] s t ∧
    (∀ a, a < s.I.toNat → t.readByte a = s.readByte a) ∧
    (∀ k, (h : k < 3) → s.I.toNat + k < 4096 → t.readByte (s.I.toNat + k) = s.readByte (s.I.toNat + k) ∨
      (t.readByte (s.I.toNat + k)).toNat = s.v[x].toNat / 10 ^ (2 - k) % 10)) ∧
  (4096 ≤ s.I.toNat + x.val → ∃ t, exec (.storeRegs x) s = .next t ∧
    t.halted = some ⟨.boundsError, s.pc, some 0x1000⟩ ∧ t.pc = s.pc ∧ Unchanged [.memory, .halted] [] s t ∧
    (∀ a, a < s.I.toNat → t.readByte a = s.readByte a) ∧
    (∀ r : Reg, s.I.toNat + r.val < 4096 → t.readByte (s.I.toNat + r.val) = s.readByte (s.I.toNat + r.val) ∨
      t.readByte (s.I.toNat + r.val) = s.v[r]))

/-- R174, R257, R258: a load that reaches past 0xFFF takes `BoundsError` with address 0x1000, and each register whose byte
lies in memory is the old one or the loaded one (the spec's decision D17; log entry 4). -/
def Obligations.LoadFaultsPastMemory : Prop := ∀ (x : Reg) (s : State), s.I.toNat < 4096 → 4096 ≤ s.I.toNat + x.val →
  ∃ t, exec (.loadRegs x) s = .next t ∧ t.halted = some ⟨.boundsError, s.pc, some 0x1000⟩ ∧ t.pc = s.pc ∧
    Unchanged [.halted] ((List.finRange 16).filter fun r => decide (s.I.toNat + r.val < 4096)) s t ∧
    ∀ r : Reg, s.I.toNat + r.val < 4096 → t.v[r] = s.v[r] ∨ t.v[r] = s.readByte (s.I.toNat + r.val)

/-! ### The display -/

/-- R194: CLS blanks the screen and always sets redraw. -/
def Obligations.ClsBlanksScreen : Prop := ∀ s : State, ∃ t, exec .cls s = .next t ∧
  (∀ (c : Fin 64) (r : Fin 32), t.fb[c][r] = false) ∧ t.redraw = true ∧ t.pc = nextPc s ∧
  Unchanged [.screen, .redraw] [] s t

/-- R193, R196–R198: DRW flips exactly the pixels under the sprite's set bits, clipped at the right and bottom edges; VF
is 1 iff such a pixel was on; redraw is set iff there is such a pixel. -/
def Obligations.DrwFlipsSpritePixels : Prop := ∀ (x y : Reg) (n : BitVec 4) (s : State),
  s.spriteInMemory (s.v[y].toNat % 32) n.toNat → ∃ t, exec (.drw x y n) s = .next t ∧
    (∀ (c : Fin 64) (r : Fin 32), t.fb[c][r] =
      (s.fb[c][r] ^^ s.spriteCovers (s.v[x].toNat % 64) (s.v[y].toNat % 32) n.toNat c r)) ∧
    ((∃ (c : Fin 64) (r : Fin 32), s.fb[c][r] = true ∧
        s.spriteCovers (s.v[x].toNat % 64) (s.v[y].toNat % 32) n.toNat c r = true) → t.v[VF] = 1) ∧
    ((∀ (c : Fin 64) (r : Fin 32), s.fb[c][r] = true →
        s.spriteCovers (s.v[x].toNat % 64) (s.v[y].toNat % 32) n.toNat c r = false) → t.v[VF] = 0) ∧
    (t.redraw = true ↔ s.redraw = true ∨ ∃ (c : Fin 64) (r : Fin 32),
        s.spriteCovers (s.v[x].toNat % 64) (s.v[y].toNat % 32) n.toNat c r = true) ∧
    t.pc = nextPc s ∧ Unchanged [.screen, .redraw] [VF] s t

/-- R200 (the spec's derivation from R196): DRW with n = 0 draws nothing and still clears VF. -/
def Obligations.DrwZeroRowsClearsVF : Prop := ∀ (x y : Reg) (s : State),
  exec (.drw x y 0) s = .next { s with v := s.v.set VF 0, pc := nextPc s }

/-- R202 (the spec's derivation from R196): the same sprite drawn twice restores every pixel, when neither coordinate
register is VF; the second draw reports VF = 1 exactly when the first left an affected pixel on. -/
def Obligations.DrwTwiceRestoresScreen : Prop := ∀ (x y : Reg) (n : BitVec 4) (s : State), x ≠ VF → y ≠ VF →
  s.spriteInMemory (s.v[y].toNat % 32) n.toNat → ∃ t u, exec (.drw x y n) s = .next t ∧ exec (.drw x y n) t = .next u ∧
    u.fb = s.fb ∧
    ((∃ (c : Fin 64) (r : Fin 32), t.fb[c][r] = true ∧
        s.spriteCovers (s.v[x].toNat % 64) (s.v[y].toNat % 32) n.toNat c r = true) ↔ u.v[VF] = 1)

/-- R196, R257, R258: a drawn row outside memory takes `BoundsError` with address 0x1000; a pixel of a row read before it is
as it was or flipped, every other pixel is as it was, VF holds its old value, the 0 of step 2 or a collision's 1, and redraw
holds its old value or is set by a flipped pixel (the spec's decision D17; log entry 4). -/
def Obligations.DrwFaultsPastMemory : Prop := ∀ (x y : Reg) (n : BitVec 4) (s : State), s.I.toNat < 4096 →
  ¬ s.spriteInMemory (s.v[y].toNat % 32) n.toNat → ∃ t, exec (.drw x y n) s = .next t ∧
    t.halted = some ⟨.boundsError, s.pc, some 0x1000⟩ ∧ t.pc = s.pc ∧
    (∀ (c : Fin 64) (r : Fin 32),
      s.spriteCovers (s.v[x].toNat % 64) (s.v[y].toNat % 32) (4096 - s.I.toNat) c r = false →
      t.fb[c][r] = s.fb[c][r]) ∧
    (t.v[VF] = s.v[VF] ∨ t.v[VF] = 0 ∨ (t.v[VF] = 1 ∧ ∃ (c : Fin 64) (r : Fin 32), s.fb[c][r] = true ∧
      s.spriteCovers (s.v[x].toNat % 64) (s.v[y].toNat % 32) (4096 - s.I.toNat) c r = true)) ∧
    (t.redraw = s.redraw ∨ (t.redraw = true ∧ ∃ (c : Fin 64) (r : Fin 32),
      s.spriteCovers (s.v[x].toNat % 64) (s.v[y].toNat % 32) (4096 - s.I.toNat) c r = true)) ∧
    Unchanged [.screen, .redraw, .halted] [VF] s t

/-! ### Timers and keys -/

/-- R222–R224: LD Vx,DT, LD DT,Vx, LD ST,Vx. -/
def Obligations.TimerReadsAndWrites : Prop := ∀ (x : Reg) (s : State),
  (∃ t, exec (.ldVxDT x) s = .next t ∧ t.v[x] = s.dt ∧ t.pc = nextPc s ∧ Unchanged [] [x] s t) ∧
  (∃ t, exec (.ldDTVx x) s = .next t ∧ t.dt = s.v[x] ∧ t.pc = nextPc s ∧ Unchanged [.delayTimer] [] s t) ∧
  (∃ t, exec (.ldSTVx x) s = .next t ∧ t.st = s.v[x] ∧ t.pc = nextPc s ∧ Unchanged [.soundTimer] [] s t)

/-- R225–R227: SKP and SKNP; `OperandRangeError` when Vx > 15, before any key is read (the spec's decision D12; log entry
18). -/
def Obligations.KeySkipsOrRangeError : Prop := ∀ (x : Reg) (s : State),
  (∀ k : Reg, s.v[x].toNat = k.val →
    (∃ t, exec (.skp x) s = .next t ∧ t.pc = (if s.key[k] = true then skipPc s else nextPc s) ∧ Unchanged [] [] s t) ∧
    (∃ t, exec (.sknp x) s = .next t ∧ t.pc = (if s.key[k] = false then skipPc s else nextPc s) ∧
      Unchanged [] [] s t)) ∧
  (15 < s.v[x].toNat →
    exec (.skp x) s = .next { s with halted := some ⟨.operandRangeError, s.pc, none⟩ } ∧
    exec (.sknp x) s = .next { s with halted := some ⟨.operandRangeError, s.pc, none⟩ })

/-- R230: LD Vx,K parks the engine and changes nothing else, pressed keys or not (the spec's decision D14; log entry 19). -/
def Obligations.KeyWaitParks : Prop := ∀ (x : Reg) (s : State), exec (.ldVxK x) s = .next { s with wait := some x }

/-! ### Whole-machine rules -/

/-- R23, R25 and every instruction's frame: an instruction changes only the registers and parts it may change. -/
def Obligations.EveryInstructionFrame : Prop := ∀ (i : Instr) (s t : State), exec i s = .next t →
  Unchanged i.mayChange i.mayWrite s t

/-- R23: VF is written as a flag by ADD Vx,Vy, SUB, SHR, SUBN, SHL and DRW only; every other instruction writes VF only when
it is its named destination. -/
def Obligations.OnlyFlagInstructionsWriteVF : Prop := ∀ (i : Instr) (s t : State), exec i s = .next t →
  t.v[VF] ≠ s.v[VF] →
    (∃ x y, i = .addReg x y ∨ i = .sub x y ∨ i = .shr x y ∨ i = .subn x y ∨ i = .shl x y) ∨ (∃ x y n, i = .drw x y n) ∨
    (∃ nn, i = .ldByte VF nn ∨ i = .addByte VF nn ∨ i = .rnd VF nn) ∨
    (∃ y, i = .ldReg VF y ∨ i = .or VF y ∨ i = .and VF y ∨ i = .xor VF y) ∨ i = .ldVxDT VF ∨ i = .loadRegs VF

/-- R25: I changes only by LD I,addr, ADD I,Vx and LD F,Vx, and its value stays in 0..4095. -/
def Obligations.OnlyIndexInstructionsWriteI : Prop := ∀ (i : Instr) (s t : State), exec i s = .next t →
  (t.I ≠ s.I → (∃ nnn, i = .ldI nnn) ∨ (∃ x, i = .addIVx x) ∨ ∃ x, i = .ldFVx x) ∧
  (s.I.toNat < 4096 → t.I.toNat < 4096)

/-- R50, R57: only LD B,Vx and LD [I],Vx store, and they change no byte outside the bytes from I on that they store to. -/
def Obligations.OnlyStoresChangeMemory : Prop := ∀ (i : Instr) (s t : State), exec i s = .next t →
  ∀ a, a < s.I.toNat ∨ s.I.toNat + i.storedBytes ≤ a → t.readByte a = s.readByte a

/-- R31, R37, R38: no step reads ST, redraw or diag: changing them changes nothing else of what a step does. -/
def Obligations.StepDoesNotReadOutputs : Prop := ∀ (s t : State) (st : Byte) (redraw : Bool) (diag : List UnknownReport),
  step s = .next t → ∃ u, step { s with st := st, redraw := redraw, diag := diag } = .next u ∧
    u = { t with st := u.st, redraw := u.redraw, diag := u.diag } ∧
    stepReport { s with st := st, redraw := redraw, diag := diag } = stepReport s

/-- R37 (the spec's decision D30): diag is append-only: a step adds at most one report at its end. -/
def Obligations.StepOnlyAppendsDiag : Prop := ∀ s t : State, step s = .next t →
  t.diag = s.diag ∨ ∃ w, s.fetch = .ok w ∧ decode w = none ∧ t.diag = s.diag ++ [⟨w, s.pc⟩]

/-- R62 (the spec's decision D22): a store by a step is what the next step fetches: after LD [I],Vx has run, the bytes
fetched are the stored ones. -/
def Obligations.StoreSeenByNextFetch : Prop := ∀ (x : Reg) (s : State), Memory.wf s.mem = true → 1 ≤ x.val →
  s.I.toNat + x.val < 4096 → (nextPc s).toNat = s.I.toNat → ∃ t, exec (.storeRegs x) s = .next t ∧
    t.fetch = .ok (s.v[(0 : Reg)] ++ s.v[(1 : Reg)])
end

