-- ==== Sys2Proof/Laws/Decode.lean ====
section
/-! SUPPORT. The fields of an encoded word, and the rows of the opcode table: a word that a row covers decodes by that row,
because the rows are disjoint. -/

namespace Sys2Proof

/-! ### Fields of a word in its three layouts -/

@[simp] theorem regBits_toNat (x : Reg) : (regBits x).toNat = x.val := rfl

@[simp] theorem regBits_toFin (x : Reg) : (regBits x).toFin = x := rfl

theorem encodeAddr_toNat (c : BitVec 4) (nnn : BitVec 12) :
    (encodeAddr c nnn).toNat = c.toNat * 4096 + nnn.toNat := by
  rw [encodeAddr, BitVec.toNat_append, ← Nat.shiftLeft_add_eq_or_of_lt nnn.isLt, Nat.shiftLeft_eq]

theorem encodeByte_toNat (c : BitVec 4) (x : Reg) (nn : Byte) :
    (encodeByte c x nn).toNat = c.toNat * 4096 + x.val * 256 + nn.toNat := by
  rw [encodeByte, BitVec.toNat_append, ← Nat.shiftLeft_add_eq_or_of_lt (BitVec.isLt _), BitVec.toNat_append,
    ← Nat.shiftLeft_add_eq_or_of_lt nn.isLt, Nat.shiftLeft_eq, Nat.shiftLeft_eq, regBits_toNat]
  omega

theorem encodeRegs_toNat (c : BitVec 4) (x y : Reg) (n : BitVec 4) :
    (encodeRegs c x y n).toNat = c.toNat * 4096 + x.val * 256 + y.val * 16 + n.toNat := by
  rw [encodeRegs, BitVec.toNat_append, ← Nat.shiftLeft_add_eq_or_of_lt (BitVec.isLt _), BitVec.toNat_append,
    ← Nat.shiftLeft_add_eq_or_of_lt (BitVec.isLt _), BitVec.toNat_append, ← Nat.shiftLeft_add_eq_or_of_lt n.isLt,
    Nat.shiftLeft_eq, Nat.shiftLeft_eq, Nat.shiftLeft_eq, regBits_toNat, regBits_toNat]
  omega

theorem fieldX_val (w : Word) : (fieldX w).val = w.toNat / 256 % 16 := by
  simp [fieldX, Nat.shiftRight_eq_div_pow]

theorem fieldY_val (w : Word) : (fieldY w).val = w.toNat / 16 % 16 := by
  simp [fieldY, Nat.shiftRight_eq_div_pow]

theorem fieldN_toNat (w : Word) : (fieldN w).toNat = w.toNat % 16 := by simp [fieldN]

theorem fieldNN_toNat (w : Word) : (fieldNN w).toNat = w.toNat % 256 := by simp [fieldNN]

theorem fieldNNN_toNat (w : Word) : (fieldNNN w).toNat = w.toNat % 4096 := by simp [fieldNNN]

@[simp] theorem fieldNNN_encodeAddr (c : BitVec 4) (nnn : BitVec 12) : fieldNNN (encodeAddr c nnn) = nnn := by
  have := nnn.isLt
  apply BitVec.eq_of_toNat_eq
  rw [fieldNNN_toNat, encodeAddr_toNat]
  omega

@[simp] theorem fieldX_encodeByte (c : BitVec 4) (x : Reg) (nn : Byte) : fieldX (encodeByte c x nn) = x := by
  have := nn.isLt
  apply Fin.ext
  rw [fieldX_val, encodeByte_toNat]
  omega

@[simp] theorem fieldNN_encodeByte (c : BitVec 4) (x : Reg) (nn : Byte) : fieldNN (encodeByte c x nn) = nn := by
  have := nn.isLt
  apply BitVec.eq_of_toNat_eq
  rw [fieldNN_toNat, encodeByte_toNat]
  omega

@[simp] theorem fieldX_encodeRegs (c : BitVec 4) (x y : Reg) (n : BitVec 4) : fieldX (encodeRegs c x y n) = x := by
  have := n.isLt
  apply Fin.ext
  rw [fieldX_val, encodeRegs_toNat]
  omega

@[simp] theorem fieldY_encodeRegs (c : BitVec 4) (x y : Reg) (n : BitVec 4) : fieldY (encodeRegs c x y n) = y := by
  have := n.isLt
  apply Fin.ext
  rw [fieldY_val, encodeRegs_toNat]
  omega

@[simp] theorem fieldN_encodeRegs (c : BitVec 4) (x y : Reg) (n : BitVec 4) : fieldN (encodeRegs c x y n) = n := by
  have := n.isLt
  apply BitVec.eq_of_toNat_eq
  rw [fieldN_toNat, encodeRegs_toNat]
  omega

/-! ### Masks -/

theorem encodeAddr_and_class (c : BitVec 4) (nnn : BitVec 12) :
    encodeAddr c nnn &&& 0xF000#16 = encodeAddr c 0#12 := by
  rw [show (0xF000#16) = (0xF#4 ++ 0#12 : BitVec 16) by decide, encodeAddr, encodeAddr, BitVec.and_append,
    BitVec.and_zero, show (0xF#4) = BitVec.allOnes 4 by decide, BitVec.and_allOnes]

theorem encodeByte_and_class (c : BitVec 4) (x : Reg) (nn : Byte) :
    encodeByte c x nn &&& 0xF000#16 = encodeByte c 0 0#8 := by
  rw [show (0xF000#16) = (0xF#4 ++ (0#4 ++ 0#8) : BitVec 16) by decide, encodeByte, encodeByte, BitVec.and_append,
    BitVec.and_append, BitVec.and_zero, BitVec.and_zero, show (0xF#4) = BitVec.allOnes 4 by decide,
    BitVec.and_allOnes, show regBits 0 = 0#4 by decide]

theorem encodeByte_and_selector (c : BitVec 4) (x : Reg) (nn : Byte) :
    encodeByte c x nn &&& 0xF0FF#16 = encodeByte c 0 nn := by
  rw [show (0xF0FF#16) = (0xF#4 ++ (0#4 ++ 0xFF#8) : BitVec 16) by decide, encodeByte, encodeByte, BitVec.and_append,
    BitVec.and_append, BitVec.and_zero, show (0xF#4) = BitVec.allOnes 4 by decide, BitVec.and_allOnes,
    show (0xFF#8) = BitVec.allOnes 8 by decide, BitVec.and_allOnes, show regBits 0 = 0#4 by decide]

theorem encodeRegs_and_class (c : BitVec 4) (x y : Reg) (n : BitVec 4) :
    encodeRegs c x y n &&& 0xF000#16 = encodeRegs c 0 0 0#4 := by
  rw [show (0xF000#16) = (0xF#4 ++ (0#4 ++ (0#4 ++ 0#4)) : BitVec 16) by decide, encodeRegs, encodeRegs,
    BitVec.and_append, BitVec.and_append, BitVec.and_append, BitVec.and_zero, BitVec.and_zero, BitVec.and_zero,
    show (0xF#4) = BitVec.allOnes 4 by decide, BitVec.and_allOnes, show regBits 0 = 0#4 by decide]

theorem encodeRegs_and_selector (c : BitVec 4) (x y : Reg) (n : BitVec 4) :
    encodeRegs c x y n &&& 0xF00F#16 = encodeRegs c 0 0 n := by
  rw [show (0xF00F#16) = (0xF#4 ++ (0#4 ++ (0#4 ++ 0xF#4)) : BitVec 16) by decide, encodeRegs, encodeRegs,
    BitVec.and_append, BitVec.and_append, BitVec.and_append, BitVec.and_zero, BitVec.and_zero,
    show (0xF#4) = BitVec.allOnes 4 by decide, BitVec.and_allOnes, BitVec.and_allOnes, show regBits 0 = 0#4 by decide]

/-! ### A word of a row is the encoding of its own fields -/

theorem word_eq_encodeAddr (w : Word) : w = encodeAddr (w.extractLsb' 12 4) (fieldNNN w) := by
  have := w.isLt
  apply BitVec.eq_of_toNat_eq
  rw [encodeAddr_toNat, fieldNNN_toNat, BitVec.extractLsb'_toNat, Nat.shiftRight_eq_div_pow]
  omega

theorem word_eq_encodeByte (w : Word) : w = encodeByte (w.extractLsb' 12 4) (fieldX w) (fieldNN w) := by
  have := w.isLt
  apply BitVec.eq_of_toNat_eq
  rw [encodeByte_toNat, fieldX_val, fieldNN_toNat, BitVec.extractLsb'_toNat, Nat.shiftRight_eq_div_pow]
  omega

theorem word_eq_encodeRegs (w : Word) :
    w = encodeRegs (w.extractLsb' 12 4) (fieldX w) (fieldY w) (fieldN w) := by
  have := w.isLt
  apply BitVec.eq_of_toNat_eq
  rw [encodeRegs_toNat, fieldX_val, fieldY_val, fieldN_toNat, BitVec.extractLsb'_toNat, Nat.shiftRight_eq_div_pow]
  omega

theorem encodeAddr_of_class {w : Word} (c : BitVec 4) (h : w &&& 0xF000#16 = encodeAddr c 0#12) :
    encodeAddr c (fieldNNN w) = w := by
  rw [word_eq_encodeAddr w, encodeAddr_and_class] at h
  have hc : w.extractLsb' 12 4 = c := by
    have := congrArg BitVec.toNat h
    rw [encodeAddr_toNat, encodeAddr_toNat] at this
    apply BitVec.eq_of_toNat_eq
    simpa using this
  conv_rhs => rw [word_eq_encodeAddr w, hc]

theorem encodeByte_of_class {w : Word} (c : BitVec 4) (h : w &&& 0xF000#16 = encodeAddr c 0#12) :
    encodeByte c (fieldX w) (fieldNN w) = w := by
  have h1 := congrArg BitVec.toNat (encodeAddr_of_class c h)
  have h2 : w.toNat / 256 % 16 * 256 + w.toNat % 256 = w.toNat % 4096 := by clear h1; omega
  rw [encodeAddr_toNat, fieldNNN_toNat] at h1
  apply BitVec.eq_of_toNat_eq
  simp only [encodeByte_toNat, fieldX_val, fieldNN_toNat]
  rw [Nat.add_assoc, h2]
  exact h1

theorem encodeRegs_of_class {w : Word} (c : BitVec 4) (h : w &&& 0xF000#16 = encodeAddr c 0#12) :
    encodeRegs c (fieldX w) (fieldY w) (fieldN w) = w := by
  have h1 := congrArg BitVec.toNat (encodeAddr_of_class c h)
  have h2 : w.toNat / 256 % 16 * 256 + (w.toNat / 16 % 16 * 16 + w.toNat % 16) = w.toNat % 4096 := by clear h1; omega
  rw [encodeAddr_toNat, fieldNNN_toNat] at h1
  apply BitVec.eq_of_toNat_eq
  simp only [encodeRegs_toNat, fieldX_val, fieldY_val, fieldN_toNat]
  rw [Nat.add_assoc, Nat.add_assoc, h2]
  exact h1

theorem encodeByte_of_selector {w : Word} (c : BitVec 4) (nn : Byte) (h : w &&& 0xF0FF#16 = encodeByte c 0 nn) :
    encodeByte c (fieldX w) nn = w := by
  rw [word_eq_encodeByte w, encodeByte_and_selector] at h
  have hw := congrArg BitVec.toNat h
  rw [encodeByte_toNat, encodeByte_toNat] at hw
  have h1 := nn.isLt
  have h2 := (fieldNN w).isLt
  simp only [Fin.isValue, Fin.val_zero] at hw
  have hc : w.extractLsb' 12 4 = c := BitVec.eq_of_toNat_eq (by omega)
  have hn : fieldNN w = nn := BitVec.eq_of_toNat_eq (by omega)
  conv_rhs => rw [word_eq_encodeByte w, hc, hn]

theorem encodeRegs_of_selector {w : Word} (c n : BitVec 4) (h : w &&& 0xF00F#16 = encodeRegs c 0 0 n) :
    encodeRegs c (fieldX w) (fieldY w) n = w := by
  rw [word_eq_encodeRegs w, encodeRegs_and_selector] at h
  have hw := congrArg BitVec.toNat h
  rw [encodeRegs_toNat, encodeRegs_toNat] at hw
  have h1 := n.isLt
  have h2 := (fieldN w).isLt
  simp only [Fin.isValue, Fin.val_zero] at hw
  have hc : w.extractLsb' 12 4 = c := BitVec.eq_of_toNat_eq (by omega)
  have hn : fieldN w = n := BitVec.eq_of_toNat_eq (by omega)
  conv_rhs => rw [word_eq_encodeRegs w, hc, hn]

/-! ### The rows are disjoint (R74, R81) -/

/-- Two rows differ in a bit that both masks fix. -/
def Row.apart (r q : Row) : Prop := r.mask &&& q.mask &&& (r.pattern ^^^ q.pattern) ≠ 0#16

theorem Row.apart_symm {r q : Row} (h : r.apart q) : q.apart r := by
  unfold Row.apart at h ⊢
  rwa [BitVec.and_comm q.mask, BitVec.xor_comm q.pattern]

/-- Rows that are apart cover no common word. -/
theorem Row.apart_covers {r q : Row} (h : r.apart q) {w : Word} (hr : r.covers w = true) : q.covers w = false := by
  by_contra hq
  simp only [Bool.not_eq_false] at hq
  simp only [Row.covers, beq_iff_eq] at hr hq
  apply h
  rw [← hr, ← hq]
  ext i
  simp only [BitVec.getElem_and, BitVec.getElem_xor, BitVec.getElem_zero]
  cases r.mask[i] <;> cases q.mask[i] <;> simp

theorem opcodeTable_apart : opcodeTable.Pairwise Row.apart := by
  unfold Row.apart
  decide

theorem find_of_pairwise_apart {l : List Row} (hl : l.Pairwise Row.apart) {r : Row} (hr : r ∈ l) {w : Word}
    (hw : r.covers w = true) : l.find? (·.covers w) = some r := by
  induction l with
  | nil => simp at hr
  | cons q l ih =>
    rw [List.pairwise_cons] at hl
    rcases List.mem_cons.mp hr with heq | hmem
    · subst heq
      simp [hw]
    · have := Row.apart_covers (Row.apart_symm (hl.1 r hmem)) hw
      rw [List.find?_cons_of_neg (by simp [this]), ih hl.2 hmem]

/-- A word decodes by any row of the table that covers it. -/
theorem decode_of_row {r : Row} (hr : r ∈ opcodeTable) {w : Word} (hw : r.covers w = true) :
    decode w = some (r.build w) := by
  rw [decode, find_of_pairwise_apart opcodeTable_apart hr hw, Option.map_some]

/-- A word decodes to an instruction only through a row that covers it. -/
theorem row_of_decode {w : Word} {i : Instr} (h : decode w = some i) :
    ∃ r ∈ opcodeTable, r.covers w = true ∧ r.build w = i := by
  rw [decode, Option.map_eq_some_iff] at h
  obtain ⟨r, hr, hi⟩ := h
  exact ⟨r, List.mem_of_find?_eq_some hr, by simpa using List.find?_some hr, hi⟩

/-- A word is unknown iff no row covers it (R84). -/
theorem decode_none_iff (w : Word) : decode w = none ↔ ∀ r ∈ opcodeTable, r.covers w = false := by
  simp [decode, List.find?_eq_none]

/-! ### Bytes (R52) -/

@[simp] theorem wordOfBytes_extract (w : Word) : wordOfBytes (w.extractLsb' 8 8) (w.extractLsb' 0 8) = w := by
  unfold wordOfBytes
  apply BitVec.eq_of_toNat_eq
  have := w.isLt
  rw [BitVec.toNat_append, ← Nat.shiftLeft_add_eq_or_of_lt (BitVec.isLt _)]
  simp [Nat.shiftRight_eq_div_pow, Nat.shiftLeft_eq]
  omega

theorem decodeBytes_bytesOfWord (w : Word) (rest : List Byte) :
    decodeBytes (bytesOfWord w ++ rest) =
      match decode w with
      | some i => .ok (i, rest)
      | none => .error (.unknownOpcode w) := by
  cases h : decode w <;> simp [bytesOfWord, decodeBytes, h]

end Sys2Proof
end

