-- ==== Sys2Proof/Laws/State.lean ====
section
/-! SUPPORT. One lemma per field and update of the state, each true by rfl, so that no proof unfolds a record update. -/

namespace Sys2Proof.Machine

section
variable (s : State)

/-! ### `setV` -/

@[simp] theorem State.setV_mem (r : Reg) (b : Byte) : (s.setV r b).mem = s.mem := rfl
@[simp] theorem State.setV_v (r : Reg) (b : Byte) : (s.setV r b).v = s.v.set r b := rfl
@[simp] theorem State.setV_I (r : Reg) (b : Byte) : (s.setV r b).I = s.I := rfl
@[simp] theorem State.setV_pc (r : Reg) (b : Byte) : (s.setV r b).pc = s.pc := rfl
@[simp] theorem State.setV_sp (r : Reg) (b : Byte) : (s.setV r b).sp = s.sp := rfl
@[simp] theorem State.setV_stack (r : Reg) (b : Byte) : (s.setV r b).stack = s.stack := rfl
@[simp] theorem State.setV_dt (r : Reg) (b : Byte) : (s.setV r b).dt = s.dt := rfl
@[simp] theorem State.setV_st (r : Reg) (b : Byte) : (s.setV r b).st = s.st := rfl
@[simp] theorem State.setV_key (r : Reg) (b : Byte) : (s.setV r b).key = s.key := rfl
@[simp] theorem State.setV_fb (r : Reg) (b : Byte) : (s.setV r b).fb = s.fb := rfl
@[simp] theorem State.setV_redraw (r : Reg) (b : Byte) : (s.setV r b).redraw = s.redraw := rfl
@[simp] theorem State.setV_wait (r : Reg) (b : Byte) : (s.setV r b).wait = s.wait := rfl
@[simp] theorem State.setV_halted (r : Reg) (b : Byte) : (s.setV r b).halted = s.halted := rfl
@[simp] theorem State.setV_diag (r : Reg) (b : Byte) : (s.setV r b).diag = s.diag := rfl
@[simp] theorem State.setV_boot (r : Reg) (b : Byte) : (s.setV r b).boot = s.boot := rfl
@[simp] theorem State.setV_draws (r : Reg) (b : Byte) : (s.setV r b).draws = s.draws := rfl

/-! ### `setI` -/

@[simp] theorem State.setI_mem (a : Nat) : (s.setI a).mem = s.mem := rfl
@[simp] theorem State.setI_v (a : Nat) : (s.setI a).v = s.v := rfl
@[simp] theorem State.setI_I (a : Nat) : (s.setI a).I = BitVec.ofNat 16 (a % 4096) := rfl
@[simp] theorem State.setI_pc (a : Nat) : (s.setI a).pc = s.pc := rfl
@[simp] theorem State.setI_sp (a : Nat) : (s.setI a).sp = s.sp := rfl
@[simp] theorem State.setI_stack (a : Nat) : (s.setI a).stack = s.stack := rfl
@[simp] theorem State.setI_dt (a : Nat) : (s.setI a).dt = s.dt := rfl
@[simp] theorem State.setI_st (a : Nat) : (s.setI a).st = s.st := rfl
@[simp] theorem State.setI_key (a : Nat) : (s.setI a).key = s.key := rfl
@[simp] theorem State.setI_fb (a : Nat) : (s.setI a).fb = s.fb := rfl
@[simp] theorem State.setI_redraw (a : Nat) : (s.setI a).redraw = s.redraw := rfl
@[simp] theorem State.setI_wait (a : Nat) : (s.setI a).wait = s.wait := rfl
@[simp] theorem State.setI_halted (a : Nat) : (s.setI a).halted = s.halted := rfl
@[simp] theorem State.setI_diag (a : Nat) : (s.setI a).diag = s.diag := rfl
@[simp] theorem State.setI_boot (a : Nat) : (s.setI a).boot = s.boot := rfl
@[simp] theorem State.setI_draws (a : Nat) : (s.setI a).draws = s.draws := rfl

/-! ### `setPc` -/

@[simp] theorem State.setPc_mem (a : Nat) : (s.setPc a).mem = s.mem := rfl
@[simp] theorem State.setPc_v (a : Nat) : (s.setPc a).v = s.v := rfl
@[simp] theorem State.setPc_I (a : Nat) : (s.setPc a).I = s.I := rfl
@[simp] theorem State.setPc_pc (a : Nat) : (s.setPc a).pc = BitVec.ofNat 16 (a % 4096) := rfl
@[simp] theorem State.setPc_sp (a : Nat) : (s.setPc a).sp = s.sp := rfl
@[simp] theorem State.setPc_stack (a : Nat) : (s.setPc a).stack = s.stack := rfl
@[simp] theorem State.setPc_dt (a : Nat) : (s.setPc a).dt = s.dt := rfl
@[simp] theorem State.setPc_st (a : Nat) : (s.setPc a).st = s.st := rfl
@[simp] theorem State.setPc_key (a : Nat) : (s.setPc a).key = s.key := rfl
@[simp] theorem State.setPc_fb (a : Nat) : (s.setPc a).fb = s.fb := rfl
@[simp] theorem State.setPc_redraw (a : Nat) : (s.setPc a).redraw = s.redraw := rfl
@[simp] theorem State.setPc_wait (a : Nat) : (s.setPc a).wait = s.wait := rfl
@[simp] theorem State.setPc_halted (a : Nat) : (s.setPc a).halted = s.halted := rfl
@[simp] theorem State.setPc_diag (a : Nat) : (s.setPc a).diag = s.diag := rfl
@[simp] theorem State.setPc_boot (a : Nat) : (s.setPc a).boot = s.boot := rfl
@[simp] theorem State.setPc_draws (a : Nat) : (s.setPc a).draws = s.draws := rfl

/-! ### `advance` -/

@[simp] theorem State.advance_mem : s.advance.mem = s.mem := rfl
@[simp] theorem State.advance_v : s.advance.v = s.v := rfl
@[simp] theorem State.advance_I : s.advance.I = s.I := rfl
@[simp] theorem State.advance_pc : s.advance.pc = nextPc s := rfl
@[simp] theorem State.advance_sp : s.advance.sp = s.sp := rfl
@[simp] theorem State.advance_stack : s.advance.stack = s.stack := rfl
@[simp] theorem State.advance_dt : s.advance.dt = s.dt := rfl
@[simp] theorem State.advance_st : s.advance.st = s.st := rfl
@[simp] theorem State.advance_key : s.advance.key = s.key := rfl
@[simp] theorem State.advance_fb : s.advance.fb = s.fb := rfl
@[simp] theorem State.advance_redraw : s.advance.redraw = s.redraw := rfl
@[simp] theorem State.advance_wait : s.advance.wait = s.wait := rfl
@[simp] theorem State.advance_halted : s.advance.halted = s.halted := rfl
@[simp] theorem State.advance_diag : s.advance.diag = s.diag := rfl
@[simp] theorem State.advance_boot : s.advance.boot = s.boot := rfl
@[simp] theorem State.advance_draws : s.advance.draws = s.draws := rfl

/-! ### `takeFatal` -/

@[simp] theorem State.takeFatal_mem (k : ErrorKind) (a : Option Nat) : (s.takeFatal k a).mem = s.mem := rfl
@[simp] theorem State.takeFatal_v (k : ErrorKind) (a : Option Nat) : (s.takeFatal k a).v = s.v := rfl
@[simp] theorem State.takeFatal_I (k : ErrorKind) (a : Option Nat) : (s.takeFatal k a).I = s.I := rfl
@[simp] theorem State.takeFatal_pc (k : ErrorKind) (a : Option Nat) : (s.takeFatal k a).pc = s.pc := rfl
@[simp] theorem State.takeFatal_sp (k : ErrorKind) (a : Option Nat) : (s.takeFatal k a).sp = s.sp := rfl
@[simp] theorem State.takeFatal_stack (k : ErrorKind) (a : Option Nat) : (s.takeFatal k a).stack = s.stack := rfl
@[simp] theorem State.takeFatal_dt (k : ErrorKind) (a : Option Nat) : (s.takeFatal k a).dt = s.dt := rfl
@[simp] theorem State.takeFatal_st (k : ErrorKind) (a : Option Nat) : (s.takeFatal k a).st = s.st := rfl
@[simp] theorem State.takeFatal_key (k : ErrorKind) (a : Option Nat) : (s.takeFatal k a).key = s.key := rfl
@[simp] theorem State.takeFatal_fb (k : ErrorKind) (a : Option Nat) : (s.takeFatal k a).fb = s.fb := rfl
@[simp] theorem State.takeFatal_redraw (k : ErrorKind) (a : Option Nat) : (s.takeFatal k a).redraw = s.redraw := rfl
@[simp] theorem State.takeFatal_wait (k : ErrorKind) (a : Option Nat) : (s.takeFatal k a).wait = s.wait := rfl
@[simp] theorem State.takeFatal_halted (k : ErrorKind) (a : Option Nat) : (s.takeFatal k a).halted = some ⟨k, s.pc, a⟩ := rfl
@[simp] theorem State.takeFatal_diag (k : ErrorKind) (a : Option Nat) : (s.takeFatal k a).diag = s.diag := rfl
@[simp] theorem State.takeFatal_boot (k : ErrorKind) (a : Option Nat) : (s.takeFatal k a).boot = s.boot := rfl
@[simp] theorem State.takeFatal_draws (k : ErrorKind) (a : Option Nat) : (s.takeFatal k a).draws = s.draws := rfl

/-! ### `toggle` -/

@[simp] theorem State.toggle_mem (x : Fin 64) (y : Fin 32) : (s.toggle x y).mem = s.mem := rfl
@[simp] theorem State.toggle_v (x : Fin 64) (y : Fin 32) : (s.toggle x y).v = s.v := rfl
@[simp] theorem State.toggle_I (x : Fin 64) (y : Fin 32) : (s.toggle x y).I = s.I := rfl
@[simp] theorem State.toggle_pc (x : Fin 64) (y : Fin 32) : (s.toggle x y).pc = s.pc := rfl
@[simp] theorem State.toggle_sp (x : Fin 64) (y : Fin 32) : (s.toggle x y).sp = s.sp := rfl
@[simp] theorem State.toggle_stack (x : Fin 64) (y : Fin 32) : (s.toggle x y).stack = s.stack := rfl
@[simp] theorem State.toggle_dt (x : Fin 64) (y : Fin 32) : (s.toggle x y).dt = s.dt := rfl
@[simp] theorem State.toggle_st (x : Fin 64) (y : Fin 32) : (s.toggle x y).st = s.st := rfl
@[simp] theorem State.toggle_key (x : Fin 64) (y : Fin 32) : (s.toggle x y).key = s.key := rfl
@[simp] theorem State.toggle_fb (x : Fin 64) (y : Fin 32) : (s.toggle x y).fb = Grid.setPixel s.fb x y (!s.fb[x][y]) := rfl
@[simp] theorem State.toggle_redraw (x : Fin 64) (y : Fin 32) : (s.toggle x y).redraw = true := rfl
@[simp] theorem State.toggle_wait (x : Fin 64) (y : Fin 32) : (s.toggle x y).wait = s.wait := rfl
@[simp] theorem State.toggle_halted (x : Fin 64) (y : Fin 32) : (s.toggle x y).halted = s.halted := rfl
@[simp] theorem State.toggle_diag (x : Fin 64) (y : Fin 32) : (s.toggle x y).diag = s.diag := rfl
@[simp] theorem State.toggle_boot (x : Fin 64) (y : Fin 32) : (s.toggle x y).boot = s.boot := rfl
@[simp] theorem State.toggle_draws (x : Fin 64) (y : Fin 32) : (s.toggle x y).draws = s.draws := rfl

/-! ### `reportUnknown` -/

@[simp] theorem State.reportUnknown_mem (w : Word) : (s.reportUnknown w).mem = s.mem := rfl
@[simp] theorem State.reportUnknown_v (w : Word) : (s.reportUnknown w).v = s.v := rfl
@[simp] theorem State.reportUnknown_I (w : Word) : (s.reportUnknown w).I = s.I := rfl
@[simp] theorem State.reportUnknown_pc (w : Word) : (s.reportUnknown w).pc = nextPc s := rfl
@[simp] theorem State.reportUnknown_sp (w : Word) : (s.reportUnknown w).sp = s.sp := rfl
@[simp] theorem State.reportUnknown_stack (w : Word) : (s.reportUnknown w).stack = s.stack := rfl
@[simp] theorem State.reportUnknown_dt (w : Word) : (s.reportUnknown w).dt = s.dt := rfl
@[simp] theorem State.reportUnknown_st (w : Word) : (s.reportUnknown w).st = s.st := rfl
@[simp] theorem State.reportUnknown_key (w : Word) : (s.reportUnknown w).key = s.key := rfl
@[simp] theorem State.reportUnknown_fb (w : Word) : (s.reportUnknown w).fb = s.fb := rfl
@[simp] theorem State.reportUnknown_redraw (w : Word) : (s.reportUnknown w).redraw = s.redraw := rfl
@[simp] theorem State.reportUnknown_wait (w : Word) : (s.reportUnknown w).wait = s.wait := rfl
@[simp] theorem State.reportUnknown_halted (w : Word) : (s.reportUnknown w).halted = s.halted := rfl
@[simp] theorem State.reportUnknown_diag (w : Word) : (s.reportUnknown w).diag = s.diag ++ [⟨w, s.pc⟩] := rfl
@[simp] theorem State.reportUnknown_boot (w : Word) : (s.reportUnknown w).boot = s.boot := rfl
@[simp] theorem State.reportUnknown_draws (w : Word) : (s.reportUnknown w).draws = s.draws := rfl

/-! ### `leaveBoot` -/

@[simp] theorem State.leaveBoot_mem : s.leaveBoot.mem = s.mem := rfl
@[simp] theorem State.leaveBoot_v : s.leaveBoot.v = s.v := rfl
@[simp] theorem State.leaveBoot_I : s.leaveBoot.I = s.I := rfl
@[simp] theorem State.leaveBoot_pc : s.leaveBoot.pc = s.pc := rfl
@[simp] theorem State.leaveBoot_sp : s.leaveBoot.sp = s.sp := rfl
@[simp] theorem State.leaveBoot_stack : s.leaveBoot.stack = s.stack := rfl
@[simp] theorem State.leaveBoot_dt : s.leaveBoot.dt = s.dt := rfl
@[simp] theorem State.leaveBoot_st : s.leaveBoot.st = s.st := rfl
@[simp] theorem State.leaveBoot_key : s.leaveBoot.key = s.key := rfl
@[simp] theorem State.leaveBoot_fb : s.leaveBoot.fb = s.fb := rfl
@[simp] theorem State.leaveBoot_redraw : s.leaveBoot.redraw = s.redraw := rfl
@[simp] theorem State.leaveBoot_wait : s.leaveBoot.wait = s.wait := rfl
@[simp] theorem State.leaveBoot_halted : s.leaveBoot.halted = s.halted := rfl
@[simp] theorem State.leaveBoot_diag : s.leaveBoot.diag = s.diag := rfl
@[simp] theorem State.leaveBoot_boot : s.leaveBoot.boot = false := rfl
@[simp] theorem State.leaveBoot_draws : s.leaveBoot.draws = s.draws := rfl

/-! ### `setResultAndFlag` -/

@[simp] theorem State.setResultAndFlag_mem (x : Reg) (r f : Byte) : (s.setResultAndFlag x r f).mem = s.mem := rfl
@[simp] theorem State.setResultAndFlag_v (x : Reg) (r f : Byte) : (s.setResultAndFlag x r f).v = (s.v.set x r).set VF f := rfl
@[simp] theorem State.setResultAndFlag_I (x : Reg) (r f : Byte) : (s.setResultAndFlag x r f).I = s.I := rfl
@[simp] theorem State.setResultAndFlag_pc (x : Reg) (r f : Byte) : (s.setResultAndFlag x r f).pc = s.pc := rfl
@[simp] theorem State.setResultAndFlag_sp (x : Reg) (r f : Byte) : (s.setResultAndFlag x r f).sp = s.sp := rfl
@[simp] theorem State.setResultAndFlag_stack (x : Reg) (r f : Byte) : (s.setResultAndFlag x r f).stack = s.stack := rfl
@[simp] theorem State.setResultAndFlag_dt (x : Reg) (r f : Byte) : (s.setResultAndFlag x r f).dt = s.dt := rfl
@[simp] theorem State.setResultAndFlag_st (x : Reg) (r f : Byte) : (s.setResultAndFlag x r f).st = s.st := rfl
@[simp] theorem State.setResultAndFlag_key (x : Reg) (r f : Byte) : (s.setResultAndFlag x r f).key = s.key := rfl
@[simp] theorem State.setResultAndFlag_fb (x : Reg) (r f : Byte) : (s.setResultAndFlag x r f).fb = s.fb := rfl
@[simp] theorem State.setResultAndFlag_redraw (x : Reg) (r f : Byte) : (s.setResultAndFlag x r f).redraw = s.redraw := rfl
@[simp] theorem State.setResultAndFlag_wait (x : Reg) (r f : Byte) : (s.setResultAndFlag x r f).wait = s.wait := rfl
@[simp] theorem State.setResultAndFlag_halted (x : Reg) (r f : Byte) : (s.setResultAndFlag x r f).halted = s.halted := rfl
@[simp] theorem State.setResultAndFlag_diag (x : Reg) (r f : Byte) : (s.setResultAndFlag x r f).diag = s.diag := rfl
@[simp] theorem State.setResultAndFlag_boot (x : Reg) (r f : Byte) : (s.setResultAndFlag x r f).boot = s.boot := rfl
@[simp] theorem State.setResultAndFlag_draws (x : Reg) (r f : Byte) : (s.setResultAndFlag x r f).draws = s.draws := rfl

/-! ### `tick` -/

@[simp] theorem State.tick_mem : s.tick.mem = s.mem := rfl
@[simp] theorem State.tick_v : s.tick.v = s.v := rfl
@[simp] theorem State.tick_I : s.tick.I = s.I := rfl
@[simp] theorem State.tick_pc : s.tick.pc = s.pc := rfl
@[simp] theorem State.tick_sp : s.tick.sp = s.sp := rfl
@[simp] theorem State.tick_stack : s.tick.stack = s.stack := rfl
@[simp] theorem State.tick_dt : s.tick.dt = countDown s.dt := rfl
@[simp] theorem State.tick_st : s.tick.st = countDown s.st := rfl
@[simp] theorem State.tick_key : s.tick.key = s.key := rfl
@[simp] theorem State.tick_fb : s.tick.fb = s.fb := rfl
@[simp] theorem State.tick_redraw : s.tick.redraw = s.redraw := rfl
@[simp] theorem State.tick_wait : s.tick.wait = s.wait := rfl
@[simp] theorem State.tick_halted : s.tick.halted = s.halted := rfl
@[simp] theorem State.tick_diag : s.tick.diag = s.diag := rfl
@[simp] theorem State.tick_boot : s.tick.boot = s.boot := rfl
@[simp] theorem State.tick_draws : s.tick.draws = s.draws := rfl

/-! ### `setKey` -/

@[simp] theorem State.setKey_mem (k : Reg) (b : Bool) : (s.setKey k b).mem = s.mem := rfl
@[simp] theorem State.setKey_v (k : Reg) (b : Bool) : (s.setKey k b).v = s.v := rfl
@[simp] theorem State.setKey_I (k : Reg) (b : Bool) : (s.setKey k b).I = s.I := rfl
@[simp] theorem State.setKey_pc (k : Reg) (b : Bool) : (s.setKey k b).pc = s.pc := rfl
@[simp] theorem State.setKey_sp (k : Reg) (b : Bool) : (s.setKey k b).sp = s.sp := rfl
@[simp] theorem State.setKey_stack (k : Reg) (b : Bool) : (s.setKey k b).stack = s.stack := rfl
@[simp] theorem State.setKey_dt (k : Reg) (b : Bool) : (s.setKey k b).dt = s.dt := rfl
@[simp] theorem State.setKey_st (k : Reg) (b : Bool) : (s.setKey k b).st = s.st := rfl
@[simp] theorem State.setKey_key (k : Reg) (b : Bool) : (s.setKey k b).key = s.key.set k b := rfl
@[simp] theorem State.setKey_fb (k : Reg) (b : Bool) : (s.setKey k b).fb = s.fb := rfl
@[simp] theorem State.setKey_redraw (k : Reg) (b : Bool) : (s.setKey k b).redraw = s.redraw := rfl
@[simp] theorem State.setKey_wait (k : Reg) (b : Bool) : (s.setKey k b).wait = s.wait := rfl
@[simp] theorem State.setKey_halted (k : Reg) (b : Bool) : (s.setKey k b).halted = s.halted := rfl
@[simp] theorem State.setKey_diag (k : Reg) (b : Bool) : (s.setKey k b).diag = s.diag := rfl
@[simp] theorem State.setKey_boot (k : Reg) (b : Bool) : (s.setKey k b).boot = s.boot := rfl
@[simp] theorem State.setKey_draws (k : Reg) (b : Bool) : (s.setKey k b).draws = s.draws := rfl

/-! ### `clearRedraw` -/

@[simp] theorem State.clearRedraw_mem : s.clearRedraw.mem = s.mem := rfl
@[simp] theorem State.clearRedraw_v : s.clearRedraw.v = s.v := rfl
@[simp] theorem State.clearRedraw_I : s.clearRedraw.I = s.I := rfl
@[simp] theorem State.clearRedraw_pc : s.clearRedraw.pc = s.pc := rfl
@[simp] theorem State.clearRedraw_sp : s.clearRedraw.sp = s.sp := rfl
@[simp] theorem State.clearRedraw_stack : s.clearRedraw.stack = s.stack := rfl
@[simp] theorem State.clearRedraw_dt : s.clearRedraw.dt = s.dt := rfl
@[simp] theorem State.clearRedraw_st : s.clearRedraw.st = s.st := rfl
@[simp] theorem State.clearRedraw_key : s.clearRedraw.key = s.key := rfl
@[simp] theorem State.clearRedraw_fb : s.clearRedraw.fb = s.fb := rfl
@[simp] theorem State.clearRedraw_redraw : s.clearRedraw.redraw = false := rfl
@[simp] theorem State.clearRedraw_wait : s.clearRedraw.wait = s.wait := rfl
@[simp] theorem State.clearRedraw_halted : s.clearRedraw.halted = s.halted := rfl
@[simp] theorem State.clearRedraw_diag : s.clearRedraw.diag = s.diag := rfl
@[simp] theorem State.clearRedraw_boot : s.clearRedraw.boot = s.boot := rfl
@[simp] theorem State.clearRedraw_draws : s.clearRedraw.draws = s.draws := rfl

/-! ### `loadRom` -/

@[simp] theorem State.loadRom_mem (bytes : List Byte) : (s.loadRom bytes).mem = Memory.storeBytes s.mem 0x200 bytes := rfl
@[simp] theorem State.loadRom_v (bytes : List Byte) : (s.loadRom bytes).v = s.v := rfl
@[simp] theorem State.loadRom_I (bytes : List Byte) : (s.loadRom bytes).I = s.I := rfl
@[simp] theorem State.loadRom_pc (bytes : List Byte) : (s.loadRom bytes).pc = s.pc := rfl
@[simp] theorem State.loadRom_sp (bytes : List Byte) : (s.loadRom bytes).sp = s.sp := rfl
@[simp] theorem State.loadRom_stack (bytes : List Byte) : (s.loadRom bytes).stack = s.stack := rfl
@[simp] theorem State.loadRom_dt (bytes : List Byte) : (s.loadRom bytes).dt = s.dt := rfl
@[simp] theorem State.loadRom_st (bytes : List Byte) : (s.loadRom bytes).st = s.st := rfl
@[simp] theorem State.loadRom_key (bytes : List Byte) : (s.loadRom bytes).key = s.key := rfl
@[simp] theorem State.loadRom_fb (bytes : List Byte) : (s.loadRom bytes).fb = s.fb := rfl
@[simp] theorem State.loadRom_redraw (bytes : List Byte) : (s.loadRom bytes).redraw = s.redraw := rfl
@[simp] theorem State.loadRom_wait (bytes : List Byte) : (s.loadRom bytes).wait = s.wait := rfl
@[simp] theorem State.loadRom_halted (bytes : List Byte) : (s.loadRom bytes).halted = s.halted := rfl
@[simp] theorem State.loadRom_diag (bytes : List Byte) : (s.loadRom bytes).diag = s.diag := rfl
@[simp] theorem State.loadRom_boot (bytes : List Byte) : (s.loadRom bytes).boot = s.boot := rfl
@[simp] theorem State.loadRom_draws (bytes : List Byte) : (s.loadRom bytes).draws = s.draws := rfl

/-! ### `skipIf` -/

@[simp] theorem State.skipIf_true : s.skipIf true = s.setPc (s.pc.toNat + 4) := rfl
@[simp] theorem State.skipIf_false : s.skipIf false = s.advance := rfl

@[simp] theorem State.skipIf_mem (c : Bool) : (s.skipIf c).mem = s.mem := by cases c <;> rfl
@[simp] theorem State.skipIf_v (c : Bool) : (s.skipIf c).v = s.v := by cases c <;> rfl
@[simp] theorem State.skipIf_I (c : Bool) : (s.skipIf c).I = s.I := by cases c <;> rfl
@[simp] theorem State.skipIf_pc (c : Bool) : (s.skipIf c).pc = if c then skipPc s else nextPc s := by
  cases c <;> rfl
@[simp] theorem State.skipIf_sp (c : Bool) : (s.skipIf c).sp = s.sp := by cases c <;> rfl
@[simp] theorem State.skipIf_stack (c : Bool) : (s.skipIf c).stack = s.stack := by cases c <;> rfl
@[simp] theorem State.skipIf_dt (c : Bool) : (s.skipIf c).dt = s.dt := by cases c <;> rfl
@[simp] theorem State.skipIf_st (c : Bool) : (s.skipIf c).st = s.st := by cases c <;> rfl
@[simp] theorem State.skipIf_key (c : Bool) : (s.skipIf c).key = s.key := by cases c <;> rfl
@[simp] theorem State.skipIf_fb (c : Bool) : (s.skipIf c).fb = s.fb := by cases c <;> rfl
@[simp] theorem State.skipIf_redraw (c : Bool) : (s.skipIf c).redraw = s.redraw := by cases c <;> rfl
@[simp] theorem State.skipIf_wait (c : Bool) : (s.skipIf c).wait = s.wait := by cases c <;> rfl
@[simp] theorem State.skipIf_halted (c : Bool) : (s.skipIf c).halted = s.halted := by cases c <;> rfl
@[simp] theorem State.skipIf_diag (c : Bool) : (s.skipIf c).diag = s.diag := by cases c <;> rfl
@[simp] theorem State.skipIf_boot (c : Bool) : (s.skipIf c).boot = s.boot := by cases c <;> rfl
@[simp] theorem State.skipIf_draws (c : Bool) : (s.skipIf c).draws = s.draws := by cases c <;> rfl

end

end Sys2Proof.Machine
end

