-- ==== Sys2Proof/Laws/Memory.lean ====
section
/-! SUPPORT. The laws of memory: a read after a write, every other address left alone, and the canonical form kept by every
memory operation. -/

namespace Sys2Proof.Machine

/-- The size of the address space, as the numeral arithmetic needs. -/
theorem memSize_eq : Config.memSize = 4096 := rfl

@[simp] theorem resetByte_top : resetByte 4095 = 0 := by decide

/-! ### Reading -/

@[simp] theorem Memory.read_nil (a : Nat) : Memory.read [] a = resetByte a := rfl

theorem Memory.read_pair (a' : Nat) (b : Byte) (m : Memory) (a : Nat) :
    Memory.read ((a', b) :: m) a = if a = a' then b else Memory.read m a := rfl

theorem Memory.read_cons_other {a c : Nat} (b : Byte) (m : Memory) (h : c ≠ a) :
    Memory.read (Memory.cons a b m) c = Memory.read m c := by
  unfold Memory.cons
  split
  · rfl
  · simp [Memory.read_pair, h]

/-- A write leaves every other address alone, in every memory, canonical or not. -/
theorem Memory.read_write_other {a c : Nat} (b : Byte) (m : Memory) (h : c ≠ a) :
    Memory.read (Memory.write m a b) c = Memory.read m c := by
  induction m with
  | nil => simp [Memory.write, Memory.read_cons_other _ _ h]
  | cons p m ih =>
    obtain ⟨a', b'⟩ := p
    unfold Memory.write
    split
    · rw [Memory.read_cons_other _ _ h]
    · split
      · rename_i _ heq
        rw [Memory.read_cons_other _ _ h, Memory.read_pair, if_neg (heq ▸ h)]
      · simp [Memory.read_pair, ih]

/-- An address below every listed one reads as after reset. -/
theorem Memory.read_of_wfFrom {lo : Nat} {m : Memory} (h : Memory.wfFrom lo m = true) {a : Nat} (ha : a < lo) :
    Memory.read m a = resetByte a := by
  induction m generalizing lo with
  | nil => rfl
  | cons p m ih =>
    obtain ⟨a', b'⟩ := p
    simp only [Memory.wfFrom, Bool.and_eq_true, decide_eq_true_eq] at h
    rw [Memory.read_pair, if_neg (by omega), ih h.2 (by omega)]

theorem Memory.wfFrom_mono {lo lo' : Nat} {m : Memory} (h : Memory.wfFrom lo m = true) (hl : lo' ≤ lo) :
    Memory.wfFrom lo' m = true := by
  cases m with
  | nil => rfl
  | cons p m =>
    simp only [Memory.wfFrom, Bool.and_eq_true, decide_eq_true_eq] at h ⊢
    exact ⟨⟨⟨by omega, h.1.1.2⟩, h.1.2⟩, h.2⟩

theorem Memory.read_cons_same {a : Nat} (b : Byte) {m : Memory} (h : Memory.wfFrom (a + 1) m = true) :
    Memory.read (Memory.cons a b m) a = b := by
  unfold Memory.cons
  split
  · rename_i hb
    rw [Memory.read_of_wfFrom h (Nat.lt_succ_self a), hb]
  · simp [Memory.read_pair]

theorem Memory.read_write_same_from {lo a : Nat} (b : Byte) {m : Memory} (h : Memory.wfFrom lo m = true) :
    Memory.read (Memory.write m a b) a = b := by
  induction m generalizing lo with
  | nil => exact Memory.read_cons_same b rfl
  | cons p m ih =>
    obtain ⟨a', b'⟩ := p
    have hm := h
    simp only [Memory.wfFrom, Bool.and_eq_true, decide_eq_true_eq] at h
    unfold Memory.write
    split
    · refine Memory.read_cons_same b ?_
      simp only [Memory.wfFrom, Bool.and_eq_true, decide_eq_true_eq]
      exact ⟨⟨⟨by omega, h.1.1.2⟩, h.1.2⟩, h.2⟩
    · split
      · rename_i _ heq
        subst heq
        exact Memory.read_cons_same b h.2
      · rename_i h1 h2
        rw [Memory.read_pair, if_neg h2]
        exact ih h.2

/-- A read after a write to the same address gives the value written. -/
theorem Memory.read_write_same {m : Memory} (h : Memory.wf m = true) (a : Nat) (b : Byte) :
    Memory.read (Memory.write m a b) a = b := Memory.read_write_same_from b h

/-! ### The canonical form -/

theorem Memory.cons_wfFrom {lo a : Nat} (b : Byte) {m : Memory} (hlo : lo ≤ a) (ha : a < Config.memSize)
    (h : Memory.wfFrom (a + 1) m = true) : Memory.wfFrom lo (Memory.cons a b m) = true := by
  unfold Memory.cons
  split
  · exact Memory.wfFrom_mono h (by omega)
  · rename_i hb
    simp [Memory.wfFrom, hlo, h, hb]
    exact ha

theorem Memory.write_wfFrom {lo a : Nat} (b : Byte) {m : Memory} (hlo : lo ≤ a) (ha : a < Config.memSize)
    (h : Memory.wfFrom lo m = true) : Memory.wfFrom lo (Memory.write m a b) = true := by
  induction m generalizing lo with
  | nil => exact Memory.cons_wfFrom b hlo ha rfl
  | cons p m ih =>
    obtain ⟨a', b'⟩ := p
    simp only [Memory.wfFrom, Bool.and_eq_true, decide_eq_true_eq] at h
    unfold Memory.write
    split
    · refine Memory.cons_wfFrom b hlo ha ?_
      simp only [Memory.wfFrom, Bool.and_eq_true, decide_eq_true_eq]
      exact ⟨⟨⟨by omega, h.1.1.2⟩, h.1.2⟩, h.2⟩
    · split
      · rename_i _ heq
        subst heq
        exact Memory.cons_wfFrom b hlo ha h.2
      · simp only [Memory.wfFrom, Bool.and_eq_true, decide_eq_true_eq]
        exact ⟨h.1, ih (by omega) h.2⟩

/-- A write inside the address space keeps the canonical form. -/
theorem Memory.write_wf {m : Memory} (h : Memory.wf m = true) {a : Nat} (ha : a < 4096) (b : Byte) :
    Memory.wf (Memory.write m a b) = true := Memory.write_wfFrom b (Nat.zero_le a) ha h

/-! ### Ascending stores -/

theorem Memory.storeBytes_wf {m : Memory} (h : Memory.wf m = true) (bs : List Byte) {base : Nat}
    (hb : bs = [] ∨ base + bs.length ≤ 4096) : Memory.wf (Memory.storeBytes m base bs) = true := by
  induction bs generalizing m base with
  | nil => exact h
  | cons b bs ih =>
    simp only [List.length_cons] at hb
    have hb' : base + (bs.length + 1) ≤ 4096 := hb.resolve_left (by simp)
    exact ih (Memory.write_wf h (by omega) b) (Or.inr (by omega))

/-- Stores at `base` and up leave every other address alone. -/
theorem Memory.read_storeBytes_outside (m : Memory) (bs : List Byte) {base a : Nat}
    (h : a < base ∨ base + bs.length ≤ a) : Memory.read (Memory.storeBytes m base bs) a = Memory.read m a := by
  induction bs generalizing m base with
  | nil => rfl
  | cons b bs ih =>
    simp only [List.length_cons] at h
    rw [Memory.storeBytes, ih _ (by omega), Memory.read_write_other _ _ (by omega)]

/-- Each stored byte reads back. -/
theorem Memory.read_storeBytes_inside {m : Memory} (hm : Memory.wf m = true) (bs : List Byte) {base k : Nat}
    (hb : base + bs.length ≤ 4096) (hk : k < bs.length) :
    Memory.read (Memory.storeBytes m base bs) (base + k) = bs[k] := by
  induction bs generalizing m base k with
  | nil => simp at hk
  | cons b bs ih =>
    simp only [List.length_cons] at hb hk
    have hw := Memory.write_wf hm (a := base) (by omega) b
    cases k with
    | zero =>
      rw [Memory.storeBytes, Memory.read_storeBytes_outside _ _ (by omega)]
      simpa using Memory.read_write_same hm base b
    | succ k =>
      have := ih hw (base := base + 1) (k := k) (by omega) (by omega)
      rw [Memory.storeBytes, show base + (k + 1) = base + 1 + k by omega, this]
      simp

/-! ### Stores of a faulting instruction (R258) -/

theorem oldOrNew_cases {α : Type} (d : Nat) (old new : α) : oldOrNew d old new = old ∨ oldOrNew d old new = new := by
  unfold oldOrNew
  split
  · exact Or.inr rfl
  · exact Or.inl rfl

@[simp] theorem oldOrNew_self {α : Type} (d : Nat) (a : α) : oldOrNew d a a = a := by simp [oldOrNew]

theorem Memory.storeOldOrNew_wf {m : Memory} (h : Memory.wf m = true) (bs : List Byte) {d base : Nat}
    (hb : bs = [] ∨ base + bs.length ≤ 4096) : Memory.wf (Memory.storeOldOrNew m d base bs) = true := by
  induction bs generalizing m base d with
  | nil => exact h
  | cons b bs ih =>
    simp only [List.length_cons] at hb
    have hb' : base + (bs.length + 1) ≤ 4096 := hb.resolve_left (by simp)
    exact ih (Memory.write_wf h (by omega) _) (Or.inr (by omega))

theorem Memory.read_storeOldOrNew_outside (m : Memory) (bs : List Byte) {d base a : Nat}
    (h : a < base ∨ base + bs.length ≤ a) :
    Memory.read (Memory.storeOldOrNew m d base bs) a = Memory.read m a := by
  induction bs generalizing m base d with
  | nil => rfl
  | cons b bs ih =>
    simp only [List.length_cons] at h
    rw [Memory.storeOldOrNew, ih _ (by omega), Memory.read_write_other _ _ (by omega)]

/-- Each byte of a faulting store is the old one or the new one. -/
theorem Memory.read_storeOldOrNew_inside {m : Memory} (hm : Memory.wf m = true) (bs : List Byte) {d base k : Nat}
    (hb : base + bs.length ≤ 4096) (hk : k < bs.length) :
    Memory.read (Memory.storeOldOrNew m d base bs) (base + k) = Memory.read m (base + k) ∨
      Memory.read (Memory.storeOldOrNew m d base bs) (base + k) = bs[k] := by
  induction bs generalizing m base k d with
  | nil => simp at hk
  | cons b bs ih =>
    simp only [List.length_cons] at hb hk
    have hw := Memory.write_wf hm (a := base) (by omega) (oldOrNew d (Memory.read m base) b)
    cases k with
    | zero =>
      rw [Memory.storeOldOrNew, Memory.read_storeOldOrNew_outside _ _ (by omega)]
      simp only [Nat.add_zero, Memory.read_write_same hm, List.getElem_cons_zero]
      exact oldOrNew_cases d _ b
    | succ k =>
      have := ih hw (d := d + 1) (base := base + 1) (k := k) (by omega) (by omega)
      rw [Memory.read_write_other _ _ (by omega)] at this
      rw [Memory.storeOldOrNew, show base + (k + 1) = base + 1 + k by omega]
      simpa using this

/-! ### The bounds check (R55, R174) -/

theorem firstOutOfRange_none_iff (base n : Nat) : firstOutOfRange base n = none ↔ n = 0 ∨ base + n ≤ 4096 := by
  simp only [firstOutOfRange, memSize_eq, List.find?_eq_none, List.mem_range, decide_eq_true_eq, not_le]
  constructor
  · intro h
    rcases Nat.eq_zero_or_pos n with h0 | h0
    · exact Or.inl h0
    · have := h (n - 1) (by omega)
      exact Or.inr (by omega)
  · intro h k hk
    omega

theorem firstOutOfRange_some {base n k : Nat} (h : firstOutOfRange base n = some k) :
    k < n ∧ 4096 ≤ base + k ∧ ∀ j < k, base + j < 4096 := by
  unfold firstOutOfRange at h
  obtain ⟨hk, i, hi, heq, hj⟩ := List.find?_eq_some_iff_getElem.mp h
  simp only [List.getElem_range] at heq hj
  subst heq
  refine ⟨by simpa using hi, by simpa using hk, fun j hji => ?_⟩
  simpa using hj j hji

/-- For a base inside memory the first address out of range is 0x1000. -/
theorem firstOutOfRange_addr {base n k : Nat} (h : firstOutOfRange base n = some k) (hb : base < 4096) :
    base + k = 4096 := by
  obtain ⟨_, h2, h3⟩ := firstOutOfRange_some h
  cases k with
  | zero => omega
  | succ k =>
    have := h3 k (by omega)
    omega

end Sys2Proof.Machine
end

