-- ==== Sys2Proof/Laws/Ops.lean ====
section
/-! SUPPORT. What each shared operation can do, said once: registers, the return stack, block transfers, keys, the fetch and
the frames. The statements' proofs cite these instead of unfolding the operations. -/

namespace Sys2Proof.Machine

/-! ### Words of a reduced value -/

/-- A value reduced mod 4096 fits a word, so narrowing loses nothing (R14). -/
theorem toNat_ofNat_mod (n : Nat) : (BitVec.ofNat 16 (n % 4096)).toNat = n % 4096 := by
  rw [BitVec.toNat_ofNat]
  omega

@[simp] theorem nextPc_toNat (s : State) : (nextPc s).toNat = (s.pc.toNat + 2) % 4096 := toNat_ofNat_mod _

@[simp] theorem skipPc_toNat (s : State) : (skipPc s).toNat = (s.pc.toNat + 4) % 4096 := toNat_ofNat_mod _

/-! ### Registers (R21) -/

theorem getV_setV (s : State) (r q : Reg) (b : Byte) : (s.setV r b).v[q] = if r = q then b else s.v[q] := by
  simp [Vector.getElem_set, Fin.ext_iff]

@[simp] theorem getV_setV_same (s : State) (r : Reg) (b : Byte) : (s.setV r b).v[r] = b := by simp

theorem getV_setV_other (s : State) {r q : Reg} (h : r ≠ q) (b : Byte) : (s.setV r b).v[q] = s.v[q] := by
  rw [getV_setV, if_neg h]

/-- The flag is written last, so it wins when the destination is VF (R147). -/
@[simp] theorem getV_setResultAndFlag_VF (s : State) (x : Reg) (r f : Byte) : (s.setResultAndFlag x r f).v[VF] = f :=
  getV_setV_same _ _ _

theorem getV_setResultAndFlag_same (s : State) {x : Reg} (h : x ≠ VF) (r f : Byte) :
    (s.setResultAndFlag x r f).v[x] = r := by
  rw [State.setResultAndFlag, getV_setV_other _ (Ne.symm h), getV_setV_same]

theorem getV_setResultAndFlag_other (s : State) {x q : Reg} (hx : x ≠ q) (hf : VF ≠ q) (r f : Byte) :
    (s.setResultAndFlag x r f).v[q] = s.v[q] := by
  rw [State.setResultAndFlag, getV_setV_other _ hf, getV_setV_other _ hx]

/-! ### Frames -/

/-- A state that differs in pc and V registers only. -/
theorem Unchanged.of_registers {s t : State} {regs : List Reg} (parts : List Part)
    (h : t = { s with v := t.v, pc := t.pc, draws := t.draws }) (hr : ∀ r : Reg, r ∉ regs → t.v[r] = s.v[r]) :
    Unchanged parts regs s t := by
  rw [h]
  refine ⟨fun r hm => ?_, fun _ => rfl, fun _ _ => rfl, fun _ => ⟨rfl, rfl⟩, fun _ => rfl, fun _ => rfl, fun _ => rfl,
    fun _ => rfl, fun _ => rfl, fun _ => rfl, fun _ => rfl, rfl, rfl⟩
  simpa using hr r hm

/-- Taking a fatal error changes nothing but the fault record (R257, R258). -/
theorem Unchanged.takeFatal (s : State) (k : ErrorKind) (a : Option Nat) {parts : List Part} (regs : List Reg)
    (hp : Part.halted ∈ parts) : Unchanged parts regs s (s.takeFatal k a) :=
  ⟨fun _ _ => rfl, fun _ => rfl, fun _ _ => rfl, fun _ => ⟨rfl, rfl⟩, fun _ => rfl, fun _ => rfl, fun _ => rfl,
    fun _ => rfl, fun _ => rfl, fun h => absurd hp h, fun _ => rfl, rfl, rfl⟩

/-! ### The return stack (R28, R29) -/

theorem State.push_of_lt (s : State) (a : Word) (h : s.sp.val < 16) :
    s.push a = some { s with stack := s.stack.set s.sp.val a, sp := ⟨s.sp.val + 1, by omega⟩ } := by
  simp [State.push, h]

theorem State.push_full (s : State) (a : Word) (h : s.sp.val = 16) : s.push a = none := by
  simp [State.push, h]

theorem State.pop_of_pos (s : State) (h : 0 < s.sp.val) :
    s.pop = some (s.stack[s.sp.val - 1]'(by omega), { s with sp := ⟨s.sp.val - 1, by omega⟩ }) := by
  simp [State.pop, Nat.pos_iff_ne_zero.mp h]

theorem State.pop_empty (s : State) (h : s.sp.val = 0) : s.pop = none := by
  simp [State.pop, h]

/-! ### Operands (R172, R227, R231) -/

theorem nibbleIndex_eq_some_iff {b : Byte} {k : Reg} : nibbleIndex b = some k ↔ b.toNat = k.val := by
  unfold nibbleIndex
  split
  · simp [Fin.ext_iff]
  · rename_i h
    have := k.isLt
    simp
    omega

theorem nibbleIndex_eq_none_iff {b : Byte} : nibbleIndex b = none ↔ 15 < b.toNat := by
  unfold nibbleIndex
  split <;> simp <;> omega

theorem mem_pressedKeys {s : State} {k : Reg} : k ∈ pressedKeys s ↔ s.key[k] = true := by
  simp [pressedKeys]

theorem pressedKeys_eq_nil_iff {s : State} : pressedKeys s = [] ↔ ∀ k : Reg, s.key[k] = false := by
  simp [pressedKeys, List.filter_eq_nil_iff]

/-- The drawn key is one of the pressed ones, whatever the free value is (R231). -/
theorem drawKey_mem (d : Nat) (k : Reg) (ks : List Reg) : drawKey d k ks ∈ k :: ks := by
  unfold drawKey
  have h : Config.freeKey d % (ks.length + 1) < (k :: ks).length := by
    simpa using Nat.mod_lt _ (Nat.succ_pos _)
  rw [List.getD_eq_getElem _ _ h]
  exact List.getElem_mem h

/-! ### Block transfers (R174–R177) -/

theorem State.storeBlock_ok (s : State) (bytes : List Byte) (h : bytes = [] ∨ s.I.toNat + bytes.length ≤ 4096) :
    s.storeBlock bytes = { s with mem := Memory.storeBytes s.mem s.I.toNat bytes }.advance := by
  rw [State.storeBlock, (firstOutOfRange_none_iff _ _).mpr (h.imp (by simp +contextual) id)]

/-- The faulting store, for I inside memory: the bytes below 0x1000 are old or new (R258). -/
theorem State.storeBlock_fault (s : State) (bytes : List Byte) (hI : s.I.toNat < 4096)
    (h : 4096 < s.I.toNat + bytes.length) :
    s.storeBlock bytes =
      { s with
        mem := Memory.storeOldOrNew s.mem s.draws s.I.toNat (bytes.take (4096 - s.I.toNat))
        draws := s.draws + (4096 - s.I.toNat) }.takeFatal .boundsError (some 4096) := by
  rw [State.storeBlock]
  cases hk : firstOutOfRange s.I.toNat bytes.length with
  | none =>
    rw [firstOutOfRange_none_iff] at hk
    omega
  | some k =>
    have hk' := firstOutOfRange_addr hk hI
    obtain rfl : k = 4096 - s.I.toNat := by omega
    simp only [hk']

theorem State.loadBlock_ok (s : State) (n : Nat) (h : n = 0 ∨ s.I.toNat + n ≤ 4096) :
    s.loadBlock n =
      { s with
        v := Vector.ofFn fun r : Fin 16 =>
          if r.val < n then s.readByte (s.I.toNat + r) else s.v[r] }.advance := by
  rw [State.loadBlock, (firstOutOfRange_none_iff _ _).mpr h]

theorem State.loadBlock_fault (s : State) (n : Nat) (hI : s.I.toNat < 4096) (h : 4096 < s.I.toNat + n) :
    s.loadBlock n =
      { s with
        v := Vector.ofFn fun r : Fin 16 =>
          if r.val < 4096 - s.I.toNat then oldOrNew (s.draws + r) s.v[r] (s.readByte (s.I.toNat + r)) else s.v[r]
        draws := s.draws + (4096 - s.I.toNat) }.takeFatal .boundsError (some 4096) := by
  rw [State.loadBlock]
  cases hk : firstOutOfRange s.I.toNat n with
  | none =>
    rw [firstOutOfRange_none_iff] at hk
    omega
  | some k =>
    have hk' := firstOutOfRange_addr hk hI
    obtain rfl : k = 4096 - s.I.toNat := by omega
    simp only [hk']

@[simp] theorem bcdDigits_length (b : Byte) : (bcdDigits b).length = 3 := rfl

@[simp] theorem registerBlock_length (s : State) (x : Reg) : (registerBlock s x).length = x.val + 1 := by
  simp [registerBlock]

theorem registerBlock_getElem (s : State) (x : Reg) {k : Nat} (h : k < (registerBlock s x).length) :
    (registerBlock s x)[k] = s.v[k]'(by have := x.isLt; rw [registerBlock_length] at h; omega) := by
  simp [registerBlock]

/-! ### The fetch (R101) -/

theorem State.fetch_ok (s : State) (h : s.pc.toNat + 1 < 4096) :
    s.fetch = .ok (s.readByte s.pc.toNat ++ s.readByte (s.pc.toNat + 1)) := by
  rw [State.fetch, if_neg (by rw [memSize_eq]; omega), wordOfBytes]

theorem State.fetch_error (s : State) (h : 4096 ≤ s.pc.toNat + 1) : s.fetch = .error (s.pc.toNat + 1) := by
  rw [State.fetch, if_pos (by rw [memSize_eq]; exact h)]

/-- The fetch reads memory and pc only. -/
theorem State.fetch_congr {s t : State} (hm : t.mem = s.mem) (hp : t.pc = s.pc) : t.fetch = s.fetch := by
  simp [State.fetch, State.readByte, hm, hp]

end Sys2Proof.Machine
end

