-- ==== Sys2Proof/Laws/Draw.lean ====
section
/-! SUPPORT. What the sprite blitter does, pixel by pixel (spec R193–R201): each set bit toggles one pixel of its own, so
a draw flips exactly the pixels under the sprite. -/

namespace Sys2Proof.Machine

/-- `t` is `s` with exactly the pixels of `P` flipped, VF set by a collision, and redraw set by a flipped pixel. -/
structure Drawn (P : Fin 64 → Fin 32 → Bool) (s t : State) : Prop where
  fb : ∀ (c : Fin 64) (r : Fin 32), t.fb[c][r] = (s.fb[c][r] ^^ P c r)
  hit : ∀ (c : Fin 64) (r : Fin 32), s.fb[c][r] = true → P c r = true → t.v[VF] = 1
  miss : (∀ (c : Fin 64) (r : Fin 32), s.fb[c][r] = true → P c r = false) → t.v[VF] = s.v[VF]
  regs : ∀ q : Reg, q ≠ VF → t.v[q] = s.v[q]
  redraw : t.redraw = true ↔ s.redraw = true ∨ ∃ (c : Fin 64) (r : Fin 32), P c r = true
  rest : t = { s with v := t.v, fb := t.fb, redraw := t.redraw }

/-- Nothing drawn. -/
theorem Drawn.none (s : State) {P : Fin 64 → Fin 32 → Bool} (hP : ∀ (c : Fin 64) (r : Fin 32), P c r = false) :
    Drawn P s s where
  fb c r := by simp [hP]
  hit c r _ h := by simp [hP] at h
  miss _ := rfl
  regs _ _ := rfl
  redraw := by simp [hP]
  rest := rfl

theorem Drawn.congr {P Q : Fin 64 → Fin 32 → Bool} {s t : State} (h : Drawn P s t)
    (hPQ : ∀ (c : Fin 64) (r : Fin 32), P c r = Q c r) : Drawn Q s t := by
  have : P = Q := funext fun c => funext fun r => hPQ c r
  exact this ▸ h

/-- VF after a draw is what it was or 1. -/
theorem Drawn.vf_cases {P : Fin 64 → Fin 32 → Bool} {s t : State} (h : Drawn P s t) :
    t.v[VF] = s.v[VF] ∨ (t.v[VF] = 1 ∧ ∃ (c : Fin 64) (r : Fin 32), s.fb[c][r] = true ∧ P c r = true) := by
  by_cases hc : ∃ (c : Fin 64) (r : Fin 32), s.fb[c][r] = true ∧ P c r = true
  · obtain ⟨c, r, hs, hp⟩ := hc
    exact Or.inr ⟨h.hit c r hs hp, c, r, hs, hp⟩
  · refine Or.inl (h.miss fun c r hs => ?_)
    by_contra hp
    exact hc ⟨c, r, hs, by simpa using hp⟩

/-- Two draws that flip disjoint sets of pixels flip their union. -/
theorem Drawn.trans {P Q : Fin 64 → Fin 32 → Bool} {s t u : State} (h : Drawn P s t) (h' : Drawn Q t u)
    (hd : ∀ (c : Fin 64) (r : Fin 32), P c r = true → Q c r = false) : Drawn (fun c r => P c r || Q c r) s u where
  fb c r := by
    rw [h'.fb, h.fb]
    have := hd c r
    cases hp : P c r <;> cases hq : Q c r <;> simp_all
  hit c r hs hpq := by
    by_cases hq : Q c r = true
    · refine h'.hit c r ?_ hq
      have : P c r = false := by
        by_contra hp
        simp [hd c r (by simpa using hp)] at hq
      rw [h.fb, hs, this]
      rfl
    · have hp : P c r = true := by simpa [hq] using hpq
      have h1 := h.hit c r hs hp
      rcases h'.vf_cases with hv | ⟨hv, _⟩
      · rw [hv, h1]
      · exact hv
  miss hm := by
    rw [h'.miss, h.miss]
    · intro c r hs
      have := hm c r hs
      simp_all
    · intro c r ht
      rw [h.fb] at ht
      by_cases hs : s.fb[c][r] = true
      · have := hm c r hs
        simp_all
      · have hp : P c r = true := by cases hp : P c r <;> simp_all
        exact hd c r hp
  regs q hq := by rw [h'.regs q hq, h.regs q hq]
  redraw := by
    rw [h'.redraw, h.redraw]
    constructor
    · rintro ((hs | ⟨c, r, hp⟩) | ⟨c, r, hp⟩)
      · exact Or.inl hs
      · exact Or.inr ⟨c, r, by simp [hp]⟩
      · exact Or.inr ⟨c, r, by simp [hp]⟩
    · rintro (hs | ⟨c, r, hp⟩)
      · exact Or.inl (Or.inl hs)
      · rcases (by simpa using hp : P c r = true ∨ Q c r = true) with hp | hp
        · exact Or.inl (Or.inr ⟨c, r, hp⟩)
        · exact Or.inr ⟨c, r, hp⟩
  rest := by rw [h'.rest, h.rest]

theorem Grid.getElem_setPixel (g : Grid) (x c : Fin 64) (y r : Fin 32) (b : Bool) :
    (Grid.setPixel g x y b)[c][r] = if x = c ∧ y = r then b else g[c][r] := by
  simp only [Grid.setPixel, Fin.getElem_fin, Vector.getElem_set, Fin.ext_iff]
  by_cases hx : x.val = c.val
  · simp [hx, Vector.getElem_set]
  · simp [hx]

/-- One set bit: toggles its pixel, unless it lies past the right edge (R196 step 4). -/
theorem State.plot_drawn (s : State) (x : Nat) (y : Fin 32) :
    Drawn (fun c r => decide (c.val = x ∧ r = y)) s (s.plot x y) := by
  unfold State.plot
  split
  · rename_i hx
    by_cases hon : s.fb[x][y] = true
    · simp only [hon, if_true]
      refine ⟨fun c r => ?_, fun _ _ _ _ => ?_, fun hm => ?_, fun q hq => ?_, ?_, rfl⟩
      · rw [State.toggle_fb, Grid.getElem_setPixel]
        by_cases hc : c.val = x ∧ r = y
        · obtain ⟨rfl, rfl⟩ := hc
          simp
        · rw [if_neg (by simpa [Fin.ext_iff, eq_comm] using hc)]
          simp [hc]
      · simp
      · simpa using hm ⟨x, hx⟩ y hon
      · simp only [State.toggle_v]
        exact getV_setV_other _ (Ne.symm hq) _
      · simp only [State.toggle_redraw, true_iff]
        exact Or.inr ⟨⟨x, hx⟩, y, by simp⟩
    · simp only [hon]
      refine ⟨fun c r => ?_, fun c r hs hp => ?_, fun hm => rfl, fun q hq => rfl, ?_, rfl⟩
      · simp only [Bool.false_eq_true, if_false, State.toggle_fb, Grid.getElem_setPixel]
        by_cases hc : c.val = x ∧ r = y
        · obtain ⟨rfl, rfl⟩ := hc
          simp
        · rw [if_neg (by simpa [Fin.ext_iff, eq_comm] using hc)]
          simp [hc]
      · obtain ⟨rfl, rfl⟩ := of_decide_eq_true hp
        exact absurd hs (by simpa using hon)
      · simp only [Bool.false_eq_true, if_false, State.toggle_redraw, true_iff]
        exact Or.inr ⟨⟨x, hx⟩, y, by simp⟩
  · rename_i hx
    refine Drawn.none s fun c r => ?_
    have := c.isLt
    simp
    omega

/-- `b & (0x80 >> c)` tests the bit c places from the left (R195). -/
theorem spriteBit_eq : ∀ (b : Byte) (c : Fin 8), spriteBit b c.val = b.getMsbD c.val := by
  intro b c
  have hb : ∀ n : Fin 256, ∀ c : Fin 8, spriteBit (BitVec.ofFin n) c.val = (BitVec.ofFin (w := 8) n).getMsbD c.val := by
    decide +kernel
  exact hb b.toFin c

/-- The pixels of the first `k` bits of a row byte at column x0 and row y. -/
def rowCovers (b : Byte) (x0 : Nat) (y : Fin 32) (k : Nat) (c : Fin 64) (r : Fin 32) : Bool :=
  decide (r = y ∧ x0 ≤ c.val ∧ c.val < x0 + k) && b.getMsbD (c.val - x0)

theorem State.drawRow_drawn (s : State) (b : Byte) (x0 : Nat) (y : Fin 32) :
    Drawn (rowCovers b x0 y 8) s (s.drawRow b x0 y) := by
  suffices h : ∀ k ≤ 8, Drawn (rowCovers b x0 y k) s
      ((List.range k).foldl (fun t c => if spriteBit b c then t.plot (x0 + c) y else t) s) from h 8 (Nat.le_refl 8)
  intro k
  induction k with
  | zero =>
    intro _
    refine Drawn.none s fun c r => ?_
    simp only [rowCovers, Bool.and_eq_false_iff, decide_eq_false_iff_not]
    left
    omega
  | succ k ih =>
    intro hk
    rw [List.range_succ, List.foldl_append, List.foldl_cons, List.foldl_nil]
    have hbit := spriteBit_eq b ⟨k, by omega⟩
    simp only at hbit
    rw [hbit]
    by_cases hset : b.getMsbD k = true
    · rw [if_pos hset]
      refine ((ih (by omega)).trans (State.plot_drawn _ _ _) fun c r hp => ?_).congr fun c r => ?_
      · simp only [rowCovers, Bool.and_eq_true, decide_eq_true_eq] at hp
        simp only [decide_eq_false_iff_not, not_and]
        omega
      · rw [Bool.eq_iff_iff]
        simp only [rowCovers, Bool.or_eq_true, Bool.and_eq_true, decide_eq_true_eq]
        constructor
        · rintro (⟨⟨h1, h2, h3⟩, h4⟩ | ⟨h1, h2⟩)
          · exact ⟨⟨h1, h2, by omega⟩, h4⟩
          · exact ⟨⟨h2, by omega, by omega⟩, by rw [h1, Nat.add_sub_cancel_left]; exact hset⟩
        · rintro ⟨⟨h1, h2, h3⟩, h4⟩
          rcases Nat.lt_or_ge c.val (x0 + k) with h5 | h5
          · exact Or.inl ⟨⟨h1, h2, h5⟩, h4⟩
          · exact Or.inr ⟨by omega, h1⟩
    · rw [if_neg hset]
      refine (ih (by omega)).congr fun c r => ?_
      rw [Bool.eq_iff_iff]
      simp only [rowCovers, Bool.and_eq_true, decide_eq_true_eq]
      constructor
      · rintro ⟨⟨h1, h2, h3⟩, h4⟩
        exact ⟨⟨h1, h2, by omega⟩, h4⟩
      · rintro ⟨⟨h1, h2, h3⟩, h4⟩
        refine ⟨⟨h1, h2, ?_⟩, h4⟩
        by_contra h5
        have : c.val - x0 = k := by omega
        rw [this] at h4
        exact hset h4

/-- The rows of a sprite: flips exactly the pixels the sprite covers (R196–R199). -/
theorem State.drawRows_drawn (s : State) (x0 y0 n : Nat) :
    Drawn (s.spriteCovers x0 y0 n) s (s.drawRows x0 y0 n) := by
  unfold State.drawRows
  induction n with
  | zero =>
    refine Drawn.none s fun c r => ?_
    simp only [State.spriteCovers, Bool.and_eq_false_iff, decide_eq_false_iff_not]
    left
    omega
  | succ n ih =>
    rw [List.range_succ, List.foldl_append, List.foldl_cons, List.foldl_nil]
    by_cases hy : y0 + n < 32
    · rw [dif_pos hy]
      refine (ih.trans (State.drawRow_drawn _ _ _ _) fun c r hp => ?_).congr fun c r => ?_
      · simp only [State.spriteCovers, Bool.and_eq_true, decide_eq_true_eq] at hp
        simp only [rowCovers, Bool.and_eq_false_iff, decide_eq_false_iff_not, Fin.ext_iff]
        left
        omega
      · rw [Bool.eq_iff_iff]
        simp only [rowCovers, State.spriteCovers, Bool.or_eq_true, Bool.and_eq_true, decide_eq_true_eq, Fin.ext_iff]
        constructor
        · rintro (⟨⟨h1, h2, h3, h4⟩, h5⟩ | ⟨⟨h1, h2, h3⟩, h4⟩)
          · exact ⟨⟨h1, h2, h3, by omega⟩, h5⟩
          · refine ⟨⟨h2, h3, by omega, by omega⟩, ?_⟩
            rw [h1, Nat.add_sub_cancel_left]
            exact h4
        · rintro ⟨⟨h1, h2, h3, h4⟩, h5⟩
          rcases Nat.lt_or_ge r.val (y0 + n) with h6 | h6
          · exact Or.inl ⟨⟨h1, h2, h3, h6⟩, h5⟩
          · have h7 : r.val = y0 + n := by omega
            refine Or.inr ⟨⟨h7, h1, h2⟩, ?_⟩
            rw [h7, Nat.add_sub_cancel_left] at h5
            exact h5
    · rw [dif_neg hy]
      refine ih.congr fun c r => ?_
      have := r.isLt
      rw [Bool.eq_iff_iff]
      simp only [State.spriteCovers, Bool.and_eq_true, decide_eq_true_eq]
      constructor
      · rintro ⟨⟨h1, h2, h3, h4⟩, h5⟩
        exact ⟨⟨h1, h2, h3, by omega⟩, h5⟩
      · rintro ⟨⟨h1, h2, h3, h4⟩, h5⟩
        exact ⟨⟨h1, h2, h3, by omega⟩, h5⟩

/-- A draw stays inside memory exactly when its bounds check passes (R201). -/
theorem firstOutOfRange_rows (s : State) {y0 n : Nat} (hy : y0 < 32) :
    firstOutOfRange s.I.toNat (rowsDrawn y0 n) = none ↔ s.spriteInMemory y0 n := by
  rw [firstOutOfRange_none_iff, State.spriteInMemory, show rowsDrawn y0 n = min n (32 - y0) from rfl]
  constructor
  · intro h r hr hyr
    omega
  · intro h
    rcases Nat.eq_zero_or_pos n with hn | hn
    · left; omega
    · have := h (min n (32 - y0) - 1) (by omega) (by omega)
      right; omega

end Sys2Proof.Machine
end

