-- ==== Sys2Proof/Laws/PerInstr.lean ====
section
/-! SUPPORT. The per-instruction family TableRow: each instruction's operands are in range (spec R72) and its word matches its
own row of spec/opcode_table.json, mask and match copied from that file (R81). -/

namespace Sys2Proof.Laws.TableRow

/-- Mask and match of the instruction's row in spec/opcode_table.json. -/
def maskMatch : Instr → Word × Word
  | .cls => (0xFFFF, 0x00E0)
  | .ret => (0xFFFF, 0x00EE)
  | .jp _ => (0xF000, 0x1000)
  | .call _ => (0xF000, 0x2000)
  | .seByte _ _ => (0xF000, 0x3000)
  | .sneByte _ _ => (0xF000, 0x4000)
  | .seReg _ _ => (0xF00F, 0x5000)
  | .ldByte _ _ => (0xF000, 0x6000)
  | .addByte _ _ => (0xF000, 0x7000)
  | .ldReg _ _ => (0xF00F, 0x8000)
  | .or _ _ => (0xF00F, 0x8001)
  | .and _ _ => (0xF00F, 0x8002)
  | .xor _ _ => (0xF00F, 0x8003)
  | .addReg _ _ => (0xF00F, 0x8004)
  | .sub _ _ => (0xF00F, 0x8005)
  | .shr _ _ => (0xF00F, 0x8006)
  | .subn _ _ => (0xF00F, 0x8007)
  | .shl _ _ => (0xF00F, 0x800E)
  | .sneReg _ _ => (0xF00F, 0x9000)
  | .ldI _ => (0xF000, 0xA000)
  | .jpV0 _ => (0xF000, 0xB000)
  | .rnd _ _ => (0xF000, 0xC000)
  | .drw _ _ _ => (0xF000, 0xD000)
  | .skp _ => (0xF0FF, 0xE09E)
  | .sknp _ => (0xF0FF, 0xE0A1)
  | .ldVxDT _ => (0xF0FF, 0xF007)
  | .ldVxK _ => (0xF0FF, 0xF00A)
  | .ldDTVx _ => (0xF0FF, 0xF015)
  | .ldSTVx _ => (0xF0FF, 0xF018)
  | .addIVx _ => (0xF0FF, 0xF01E)
  | .ldFVx _ => (0xF0FF, 0xF029)
  | .ldBVx _ => (0xF0FF, 0xF033)
  | .storeRegs _ => (0xF0FF, 0xF055)
  | .loadRegs _ => (0xF0FF, 0xF065)

/-! The four shapes of operands are in range. -/

theorem wfAddr (nnn : BitVec 12) : ([⟨.addr, nnn.toNat⟩] : List Operand).all Operand.wellFormed = true := by
  have : nnn.toNat < 4096 := nnn.isLt
  simp [Operand.wellFormed, OperandForm.limit, this]

theorem wfByte (x : Reg) (nn : Byte) :
    ([⟨.vx, x⟩, ⟨.byte, nn.toNat⟩] : List Operand).all Operand.wellFormed = true := by
  have : nn.toNat < 256 := nn.isLt
  simp [Operand.wellFormed, OperandForm.limit, this]

theorem wfReg (x : Reg) : ([⟨.vx, x⟩] : List Operand).all Operand.wellFormed = true := by
  simp [Operand.wellFormed, OperandForm.limit]

theorem wfRegs (x y : Reg) : ([⟨.vx, x⟩, ⟨.vy, y⟩] : List Operand).all Operand.wellFormed = true := by
  simp [Operand.wellFormed, OperandForm.limit]

theorem wfDraw (x y : Reg) (n : BitVec 4) :
    ([⟨.vx, x⟩, ⟨.vy, y⟩, ⟨.nibble, n.toNat⟩] : List Operand).all Operand.wellFormed = true := by
  have : n.toNat < 16 := n.isLt
  simp [Operand.wellFormed, OperandForm.limit, this]

/-- The instruction is well formed and its word matches its row. -/
def Statement (i : Instr) : Prop := i.wellFormed = true ∧ encode i &&& (maskMatch i).1 = (maskMatch i).2

theorem cls : Statement .cls := ⟨by decide, by decide⟩

theorem ret : Statement .ret := ⟨by decide, by decide⟩

theorem jp (nnn : BitVec 12) : Statement (.jp nnn) :=
  ⟨wfAddr _, (encodeAddr_and_class _ _).trans rfl⟩

theorem call (nnn : BitVec 12) : Statement (.call nnn) :=
  ⟨wfAddr _, (encodeAddr_and_class _ _).trans rfl⟩

theorem seByte (x : Reg) (nn : Byte) : Statement (.seByte x nn) :=
  ⟨wfByte _ _, (encodeByte_and_class _ _ _).trans rfl⟩

theorem sneByte (x : Reg) (nn : Byte) : Statement (.sneByte x nn) :=
  ⟨wfByte _ _, (encodeByte_and_class _ _ _).trans rfl⟩

theorem seReg (x y : Reg) : Statement (.seReg x y) :=
  ⟨wfRegs _ _, (encodeRegs_and_selector _ _ _ _).trans rfl⟩

theorem ldByte (x : Reg) (nn : Byte) : Statement (.ldByte x nn) :=
  ⟨wfByte _ _, (encodeByte_and_class _ _ _).trans rfl⟩

theorem addByte (x : Reg) (nn : Byte) : Statement (.addByte x nn) :=
  ⟨wfByte _ _, (encodeByte_and_class _ _ _).trans rfl⟩

theorem ldReg (x y : Reg) : Statement (.ldReg x y) :=
  ⟨wfRegs _ _, (encodeRegs_and_selector _ _ _ _).trans rfl⟩

theorem or (x y : Reg) : Statement (.or x y) :=
  ⟨wfRegs _ _, (encodeRegs_and_selector _ _ _ _).trans rfl⟩

theorem and (x y : Reg) : Statement (.and x y) :=
  ⟨wfRegs _ _, (encodeRegs_and_selector _ _ _ _).trans rfl⟩

theorem xor (x y : Reg) : Statement (.xor x y) :=
  ⟨wfRegs _ _, (encodeRegs_and_selector _ _ _ _).trans rfl⟩

theorem addReg (x y : Reg) : Statement (.addReg x y) :=
  ⟨wfRegs _ _, (encodeRegs_and_selector _ _ _ _).trans rfl⟩

theorem sub (x y : Reg) : Statement (.sub x y) :=
  ⟨wfRegs _ _, (encodeRegs_and_selector _ _ _ _).trans rfl⟩

theorem shr (x y : Reg) : Statement (.shr x y) :=
  ⟨wfRegs _ _, (encodeRegs_and_selector _ _ _ _).trans rfl⟩

theorem subn (x y : Reg) : Statement (.subn x y) :=
  ⟨wfRegs _ _, (encodeRegs_and_selector _ _ _ _).trans rfl⟩

theorem shl (x y : Reg) : Statement (.shl x y) :=
  ⟨wfRegs _ _, (encodeRegs_and_selector _ _ _ _).trans rfl⟩

theorem sneReg (x y : Reg) : Statement (.sneReg x y) :=
  ⟨wfRegs _ _, (encodeRegs_and_selector _ _ _ _).trans rfl⟩

theorem ldI (nnn : BitVec 12) : Statement (.ldI nnn) :=
  ⟨wfAddr _, (encodeAddr_and_class _ _).trans rfl⟩

theorem jpV0 (nnn : BitVec 12) : Statement (.jpV0 nnn) :=
  ⟨wfAddr _, (encodeAddr_and_class _ _).trans rfl⟩

theorem rnd (x : Reg) (nn : Byte) : Statement (.rnd x nn) :=
  ⟨wfByte _ _, (encodeByte_and_class _ _ _).trans rfl⟩

theorem drw (x y : Reg) (n : BitVec 4) : Statement (.drw x y n) :=
  ⟨wfDraw _ _ _, (encodeRegs_and_class _ _ _ _).trans rfl⟩

theorem skp (x : Reg) : Statement (.skp x) :=
  ⟨wfReg _, (encodeByte_and_selector _ _ _).trans rfl⟩

theorem sknp (x : Reg) : Statement (.sknp x) :=
  ⟨wfReg _, (encodeByte_and_selector _ _ _).trans rfl⟩

theorem ldVxDT (x : Reg) : Statement (.ldVxDT x) :=
  ⟨wfReg _, (encodeByte_and_selector _ _ _).trans rfl⟩

theorem ldVxK (x : Reg) : Statement (.ldVxK x) :=
  ⟨wfReg _, (encodeByte_and_selector _ _ _).trans rfl⟩

theorem ldDTVx (x : Reg) : Statement (.ldDTVx x) :=
  ⟨wfReg _, (encodeByte_and_selector _ _ _).trans rfl⟩

theorem ldSTVx (x : Reg) : Statement (.ldSTVx x) :=
  ⟨wfReg _, (encodeByte_and_selector _ _ _).trans rfl⟩

theorem addIVx (x : Reg) : Statement (.addIVx x) :=
  ⟨wfReg _, (encodeByte_and_selector _ _ _).trans rfl⟩

theorem ldFVx (x : Reg) : Statement (.ldFVx x) :=
  ⟨wfReg _, (encodeByte_and_selector _ _ _).trans rfl⟩

theorem ldBVx (x : Reg) : Statement (.ldBVx x) :=
  ⟨wfReg _, (encodeByte_and_selector _ _ _).trans rfl⟩

theorem storeRegs (x : Reg) : Statement (.storeRegs x) :=
  ⟨wfReg _, (encodeByte_and_selector _ _ _).trans rfl⟩

theorem loadRegs (x : Reg) : Statement (.loadRegs x) :=
  ⟨wfReg _, (encodeByte_and_selector _ _ _).trans rfl⟩

end Sys2Proof.Laws.TableRow

namespace Sys2Proof

/-- Every instruction is well formed: its operands have exactly the width of their fields (R72). -/
theorem Instr.wellFormed_all (i : Instr) : i.wellFormed = true := by
  cases i <;> first | exact (by decide) | exact Laws.TableRow.wfAddr _ | exact Laws.TableRow.wfByte _ _ | exact Laws.TableRow.wfRegs _ _ | exact Laws.TableRow.wfDraw _ _ _ | exact Laws.TableRow.wfReg _

end Sys2Proof
end

