-- ==== Sys2Proof/Laws/Step.lean ====
section
/-! SUPPORT. What a step can do, said once, and the frames of the shared operations. -/

namespace Sys2Proof.Machine

/-! ### Frames of the shared operations -/

theorem Unchanged.setPc (s : State) (a : Nat) (parts : List Part) (regs : List Reg) :
    Unchanged parts regs s (s.setPc a) :=
  .of_registers parts rfl fun _ _ => rfl

theorem Unchanged.skipIf (s : State) (c : Bool) (parts : List Part) (regs : List Reg) :
    Unchanged parts regs s (s.skipIf c) := by
  cases c <;> exact Unchanged.setPc _ _ _ _

theorem Unchanged.setV_advance (s : State) (x : Reg) (b : Byte) (parts : List Part) :
    Unchanged parts [x] s (s.setV x b).advance :=
  .of_registers parts rfl fun r hr => getV_setV_other _ (by simpa [eq_comm] using hr) _

theorem Unchanged.setResultAndFlag_advance (s : State) (x : Reg) (r f : Byte) (parts : List Part) :
    Unchanged parts [x, VF] s (s.setResultAndFlag x r f).advance :=
  .of_registers parts rfl fun q hq => by
    simp only [List.mem_cons, List.not_mem_nil, or_false, not_or] at hq
    exact getV_setResultAndFlag_other _ (Ne.symm hq.1) (Ne.symm hq.2) _ _

/-- A store that ran or faulted: memory, pc and the fault record only. -/
theorem Unchanged.of_memory {s t : State}
    (h : t = { s with mem := t.mem, draws := t.draws, pc := t.pc, halted := t.halted }) :
    Unchanged [.memory, .halted] [] s t := by
  rw [h]
  exact ⟨fun _ _ => rfl, fun _ => rfl, fun h => absurd (by simp) h, fun _ => ⟨rfl, rfl⟩, fun _ => rfl, fun _ => rfl,
    fun _ => rfl, fun _ => rfl, fun _ => rfl, fun h => absurd (by simp) h, fun _ => rfl, rfl, rfl⟩

/-- A load that faulted: some V registers and the fault record only. -/
theorem Unchanged.of_fatal_registers {s t : State} {regs : List Reg}
    (h : t = { s with v := t.v, draws := t.draws, halted := t.halted }) (hr : ∀ r : Reg, r ∉ regs → t.v[r] = s.v[r]) :
    Unchanged [.halted] regs s t := by
  rw [h]
  exact ⟨by simpa using hr, fun _ => rfl, fun _ _ => rfl, fun _ => ⟨rfl, rfl⟩, fun _ => rfl, fun _ => rfl, fun _ => rfl,
    fun _ => rfl, fun _ => rfl, fun h => absurd (by simp) h, fun _ => rfl, rfl, rfl⟩

/-! ### The wait turn (R231) -/

/-- A wait turn stores nothing but a key in Vx: the rest but wait and pc stays. -/
theorem State.waitTurn_rest (s : State) (x : Reg) :
    s.waitTurn x =
      { s with
        v := (s.waitTurn x).v
        pc := (s.waitTurn x).pc
        wait := (s.waitTurn x).wait
        draws := (s.waitTurn x).draws } := by
  unfold State.waitTurn
  split <;> rfl

/-! ### The step (R100) -/

/-- A step that is neither halted nor waiting fetches, decodes and executes, after the boot phase is ended. -/
theorem step_run {s : State} (hh : s.halted = none) (hw : s.wait = none) :
    step s = s.leaveBoot.fetchDecodeExecute := by
  simp [step, engineStep, hh, hw]

/-- Everything a step can do: halted, waiting, a fetch out of range, an unknown word, or an instruction. -/
theorem step_cases {s t : State} (h : step s = .next t) :
    (s.halted ≠ none ∧ t = s) ∨
    (∃ x, s.halted = none ∧ s.wait = some x ∧ t = s.waitTurn x) ∨
    (s.halted = none ∧ s.wait = none ∧
      ((∃ a, s.fetch = .error a ∧ t = s.leaveBoot.takeFatal .boundsError (some a)) ∨
        (∃ w, s.fetch = .ok w ∧ decode w = none ∧ t = s.leaveBoot.reportUnknown w) ∨
        ∃ w i, s.fetch = .ok w ∧ decode w = some i ∧ exec i s.leaveBoot = .next t)) := by
  cases hh : s.halted with
  | some f =>
    simp only [step, engineStep, hh, Host.Outcome.next.injEq] at h
    exact Or.inl ⟨by simp, h.symm⟩
  | none =>
    cases hw : s.wait with
    | some x =>
      simp only [step, engineStep, hh, hw, Host.Outcome.next.injEq] at h
      exact Or.inr (Or.inl ⟨x, rfl, rfl, h.symm⟩)
    | none =>
      refine Or.inr (Or.inr ⟨rfl, rfl, ?_⟩)
      rw [step_run hh hw, State.fetchDecodeExecute, show s.leaveBoot.fetch = s.fetch from State.fetch_congr rfl rfl] at h
      split at h
      · rename_i a ha
        simp only [Host.Outcome.next.injEq] at h
        exact Or.inl ⟨a, ha, h.symm⟩
      · rename_i w hf
        split at h
        · rename_i hd
          simp only [Host.Outcome.next.injEq] at h
          exact Or.inr (Or.inl ⟨w, hf, hd, h.symm⟩)
        · rename_i i hd
          exact Or.inr (Or.inr ⟨w, i, hf, hd, h⟩)

/-! ### The state whose next instruction is a given word -/

/-- `withFetchWord` leaves the machine ready to fetch: it is neither halted nor waiting. -/
theorem State.withFetchWord_ready (s : State) (nbits w : Nat) :
    (s.withFetchWord nbits w).halted = none ∧ (s.withFetchWord nbits w).wait = none := ⟨rfl, rfl⟩

/-- From the reset state `withFetchWord` changes memory only: pc, wait and the fault record are already as it needs them. -/
theorem State.reset_withFetchWord (nbits w : Nat) :
    State.reset.withFetchWord nbits w =
      { State.reset with mem := Memory.storeBytes [] 0x200 (bytesOfWord (tableWord nbits w)) } := rfl

end Sys2Proof.Machine
end

