-- ==== Sys2Proof/Tests/Slice0.lean ====
section
/-! SUPPORT. Tests of the model on words and vectors of spec/95_test_vectors.md (each theorem names its vectors), and for every
statement with hypotheses a witness that meets all of them together. -/

namespace Sys2Proof.Tests

open Sys2Proof.Machine

/-! ### Helpers -/

/-- The outcome is a next state of which `p` holds. -/
def nextIs (o : Host.Outcome State Fault Refusal) (p : State → Bool) : Bool :=
  match o with
  | .next t => p t
  | .fault _ => false
  | .refused _ => false

/-- The step that executes the word `w` in state `s` ends in a next state of which `p` holds. -/
def stepWord (w : Nat) (s : State) (p : State → Bool) : Bool := nextIs (step (s.withFetchWord 16 w)) p

/-- The reset state with V registers set. -/
def withV (l : List (Reg × Byte)) : State := l.foldl (fun s p => s.setV p.1 p.2) State.reset

/-- The fault record a test expects. -/
def isFatal (t : State) (k : ErrorKind) (pc : Word) (a : Option Nat) : Bool :=
  decide (t.halted = some (FaultRecord.mk k pc a)) && t.pc == pc

/-- Sprite bytes at 0x300: 0xFF, 0x81, 0x00 (section 2.6 of the vectors). -/
def sprites (s : State) : State := { s with mem := Memory.storeBytes s.mem 0x300 [0xFF, 0x81, 0x00], I := 0x300 }

/-- A row of the screen, column 0 first. -/
def row (t : State) (r : Fin 32) : List Bool := (List.finRange 64).map fun c => t.fb[c][r]

/-- A row in which exactly the columns from `a` on, `n` of them, are lit. -/
def litRow (a n : Nat) : List Bool := (List.range 64).map fun c => decide (a ≤ c ∧ c < a + n)

/-! ### Well-formedness (R72): an operand out of range is refused, form by form -/

theorem test_wellFormed_refuses_vx : Operand.wellFormed ⟨.vx, 16⟩ = false := by decide
theorem test_wellFormed_refuses_vy : Operand.wellFormed ⟨.vy, 16⟩ = false := by decide
theorem test_wellFormed_refuses_byte : Operand.wellFormed ⟨.byte, 256⟩ = false := by decide
theorem test_wellFormed_refuses_nibble : Operand.wellFormed ⟨.nibble, 16⟩ = false := by decide
theorem test_wellFormed_refuses_addr : Operand.wellFormed ⟨.addr, 4096⟩ = false := by decide

theorem test_wellFormed_accepts_limits :
    ([⟨.vx, 15⟩, ⟨.vy, 15⟩, ⟨.byte, 255⟩, ⟨.nibble, 15⟩, ⟨.addr, 4095⟩] : List Operand).all Operand.wellFormed = true := by
  decide

/-! ### Decoding: every constructor from a word written out from R75–R80 -/

/-- E1, E2, E6 to E9, E16, E18. -/
theorem test_decode_control :
    decode 0x00E0 = some .cls ∧ decode 0x00EE = some .ret ∧ decode 0x1ABC = some (.jp 0xABC) ∧
    decode 0x2ABC = some (.call 0xABC) ∧ decode 0x3A7F = some (.seByte 0xA 0x7F) ∧
    decode 0x4B80 = some (.sneByte 0xB 0x80) ∧ decode 0x5120 = some (.seReg 1 2) ∧
    decode 0x9120 = some (.sneReg 1 2) ∧ decode 0xB123 = some (.jpV0 0x123) := by decide

/-- E11, E14 and R76, R78. -/
theorem test_decode_alu :
    decode 0x6A42 = some (.ldByte 0xA 0x42) ∧ decode 0x7F01 = some (.addByte 0xF 0x01) ∧
    decode 0x8120 = some (.ldReg 1 2) ∧ decode 0x8341 = some (.or 3 4) ∧ decode 0x8562 = some (.and 5 6) ∧
    decode 0x8783 = some (.xor 7 8) ∧ decode 0x89A4 = some (.addReg 9 0xA) ∧ decode 0x8BC5 = some (.sub 0xB 0xC) ∧
    decode 0x8DE6 = some (.shr 0xD 0xE) ∧ decode 0x8F07 = some (.subn 0xF 0) ∧ decode 0x812E = some (.shl 1 2) ∧
    decode 0xC30F = some (.rnd 3 0x0F) := by decide

/-- E19, E20, E22, E23, E27 and R76, R80. -/
theorem test_decode_index_display_io :
    decode 0xA2F0 = some (.ldI 0x2F0) ∧ decode 0xD125 = some (.drw 1 2 5) ∧ decode 0xD000 = some (.drw 0 0 0) ∧
    decode 0xE19E = some (.skp 1) ∧ decode 0xE1A1 = some (.sknp 1) ∧ decode 0xF207 = some (.ldVxDT 2) ∧
    decode 0xF10A = some (.ldVxK 1) ∧ decode 0xF315 = some (.ldDTVx 3) ∧ decode 0xF418 = some (.ldSTVx 4) ∧
    decode 0xF51E = some (.addIVx 5) ∧ decode 0xF629 = some (.ldFVx 6) ∧ decode 0xF733 = some (.ldBVx 7) ∧
    decode 0xF855 = some (.storeRegs 8) ∧ decode 0xFF65 = some (.loadRegs 0xF) := by decide

/-- E3 to E5, E10, E12, E13, E15, E17, E21, E24 to E26. -/
theorem test_decode_unknown :
    decode 0x0000 = none ∧ decode 0x0123 = none ∧ decode 0x00E1 = none ∧ decode 0x5121 = none ∧ decode 0x8128 = none ∧
    decode 0x812D = none ∧ decode 0x812F = none ∧ decode 0x9121 = none ∧ decode 0xE19F = none ∧ decode 0xF11F = none ∧
    decode 0xF0FF = none ∧ decode 0xFFFF = none := by decide

/-- R52, R73: the bytes of a word, the more significant first, and too few bytes. -/
theorem test_decodeBytes :
    decodeTableWord 16 0x2ABC = some (.call 0xABC) ∧ bytesOfWord 0x2ABC = [0x2A, 0xBC] ∧
    decodeBytes [0x60, 0x07, 0xFF] = .ok (.ldByte 0 0x07, [0xFF]) ∧ decodeBytes [0x60] = .error .truncated ∧
    decodeBytes [0x51, 0x21] = .error (.unknownOpcode 0x5121) := by decide

/-! ### Reset, fetch and the step engine -/

/-- L1 and W1. -/
theorem test_reset :
    State.reset.readByte 0x04F = 0 ∧ State.reset.readByte 0x050 = 0xF0 ∧ State.reset.readByte 0x09F = 0x80 ∧
    State.reset.readByte 0x0A0 = 0 ∧ State.reset.pc = 0x200 ∧ font.length = 80 := by decide

/-- S1: a word at the top of memory. -/
theorem test_fetch_top : stepWord 0x1200 { State.reset with pc := 0xFFE } (fun t => t.pc == 0x200) = true := by decide

/-- S2: pc wraps. -/
theorem test_pc_wraps :
    stepWord 0x7105 { State.reset with pc := 0xFFE } (fun t => t.pc == 0 && t.v[1] == 0x05) = true := by decide

/-- S3 and S4. -/
theorem test_fetch_out_of_range :
    nextIs (step { State.reset with pc := 0xFFF }) (fun t =>
      isFatal t .boundsError 0xFFF (some 0x1000) && nextIs (step t) (fun u => decide (u.halted = t.halted))) = true := by
  decide

/-- S7 and W11. -/
theorem test_unknown_word :
    stepWord 0xFFFF { State.reset with pc := 0xFFE } (fun t =>
      decide (t.diag = [⟨0xFFFF, 0xFFE⟩]) && t.pc == 0 && decide (t.halted = none)) = true := by decide

/-- S8: nothing loaded. -/
theorem test_reset_step :
    nextIs (step State.reset) (fun t => decide (t.diag = [⟨0x0000, 0x200⟩]) && t.pc == 0x202) = true := by decide

/-- R108: the reports of S3, S7, T13 and a normal step. -/
theorem test_reports :
    stepReport { State.reset with pc := 0xFFF } = some (.fatal .boundsError) ∧
    stepReport State.reset = some .reported ∧
    stepReport (State.reset.withFetchWord 16 0xF30A) = some .ran ∧
    stepReport (State.reset.withFetchWord 16 0x00EE) = some (.fatal .stackUnderflow) ∧
    stepReport { State.reset with wait := some 2 } = some .waiting := by decide

/-! ### Control transfer -/

/-- CF2. -/
theorem test_ret :
    stepWord 0x00EE { State.reset with pc := 0x300, sp := 2, stack := State.reset.stack.set 1 0x456 } (fun t =>
      t.pc == 0x456 && t.sp == 1 && t.stack[1] == 0x456) = true := by decide

/-- CF1. -/
theorem test_ret_underflow :
    stepWord 0x00EE State.reset (fun t => isFatal t .stackUnderflow 0x200 none && t.sp == 0) = true := by decide

/-- CF7. -/
theorem test_jp_odd : stepWord 0x1203 { State.reset with pc := 0x201 } (fun t => t.pc == 0x203) = true := by decide

/-- CF3 and R293. -/
theorem test_jp_self : (State.reset.withFetchWord 16 0x1200).runState = .normalEnd := by decide

/-- CF5. -/
theorem test_call :
    stepWord 0x2300 { State.reset with pc := 0xFFE } (fun t => t.stack[0] == 0 && t.sp == 1 && t.pc == 0x300) = true := by
  decide

/-- CF6. -/
theorem test_call_overflow :
    stepWord 0x2300 { State.reset with sp := 16 } (fun t =>
      isFatal t .stackOverflow 0x200 none && t.sp == 16 && decide (t.stack = State.reset.stack)) = true := by decide

/-- CF9. -/
theorem test_jpV0 : stepWord 0xBF80 (withV [(0, 0xFF)]) (fun t => t.pc == 0x07F) = true := by decide

/-- CF11 and CF13. -/
theorem test_seByte :
    stepWord 0x3342 { withV [(3, 0x42)] with pc := 0xFFC } (fun t => t.pc == 0) = true ∧
    stepWord 0x3342 { withV [(3, 0x41)] with pc := 0x300 } (fun t => t.pc == 0x302) = true := by decide

/-- CF14. -/
theorem test_sneByte :
    stepWord 0x4342 { withV [(3, 0x41)] with pc := 0x300 } (fun t => t.pc == 0x304) = true := by decide

/-- CF16 and CF18. -/
theorem test_seReg :
    stepWord 0x5110 (withV [(1, 0x07)]) (fun t => t.pc == 0x204) = true ∧
    stepWord 0x5120 (withV [(1, 0x07), (2, 0x08)]) (fun t => t.pc == 0x202) = true := by decide

/-- CF17 and CF19. -/
theorem test_sneReg :
    stepWord 0x9110 (withV [(1, 0x07)]) (fun t => t.pc == 0x202) = true ∧
    stepWord 0x9120 (withV [(1, 0x07), (2, 0x08)]) (fun t => t.pc == 0x204) = true := by decide

/-! ### Loads and the ALU -/

/-- A2. -/
theorem test_ldByte : stepWord 0x6F07 State.reset (fun t => t.v[15] == 0x07 && t.pc == 0x202) = true := by decide

/-- A3 and A4. -/
theorem test_addByte :
    stepWord 0x7101 (withV [(1, 0xFF)]) (fun t => t.v[1] == 0 && t.v[15] == 0) = true ∧
    stepWord 0x7FFF (withV [(15, 0x01)]) (fun t => t.v[15] == 0) = true := by decide

/-- A5. -/
theorem test_ldReg : stepWord 0x8120 (withV [(2, 0x99)]) (fun t => t.v[1] == 0x99) = true := by decide

/-- A6. -/
theorem test_or :
    stepWord 0x8121 (withV [(1, 0xF0), (2, 0x0F), (15, 0x01)]) (fun t => t.v[1] == 0xFF && t.v[15] == 0x01) = true := by
  decide

/-- A7. -/
theorem test_and : stepWord 0x8122 (withV [(1, 0xF3), (2, 0x3F)]) (fun t => t.v[1] == 0x33) = true := by decide

/-- A8. -/
theorem test_xor : stepWord 0x8123 (withV [(1, 0xFF), (2, 0x0F)]) (fun t => t.v[1] == 0xF0) = true := by decide

/-- A10 and A11 (W7). -/
theorem test_addReg :
    stepWord 0x8124 (withV [(1, 0xFE), (2, 0x01)]) (fun t => t.v[1] == 0xFF && t.v[15] == 0) = true ∧
    stepWord 0x8124 (withV [(1, 0xFF), (2, 0x01)]) (fun t => t.v[1] == 0x00 && t.v[15] == 1) = true := by decide

/-- A13 and A15: VF as destination and as operand. -/
theorem test_addReg_VF :
    stepWord 0x8F14 (withV [(15, 0x10), (1, 0x20)]) (fun t => t.v[15] == 0) = true ∧
    stepWord 0x81F4 (withV [(1, 0xF0), (15, 0x20)]) (fun t => t.v[1] == 0x10 && t.v[15] == 1) = true := by decide

/-- A16 (W8) and A17. -/
theorem test_sub :
    stepWord 0x8125 (withV [(1, 0x01), (2, 0x02)]) (fun t => t.v[1] == 0xFF && t.v[15] == 0) = true ∧
    stepWord 0x8125 (withV [(1, 0x05), (2, 0x05)]) (fun t => t.v[1] == 0 && t.v[15] == 1) = true := by decide

/-- A21 and A23. -/
theorem test_shr :
    stepWord 0x8016 (withV [(0, 0x80), (1, 0xFF)]) (fun t => t.v[0] == 0x40 && t.v[15] == 0) = true ∧
    stepWord 0x8FF6 (withV [(15, 0x03)]) (fun t => t.v[15] == 0x01) = true := by decide

/-- A25 and A27. -/
theorem test_subn :
    stepWord 0x8127 (withV [(1, 0x02), (2, 0x01)]) (fun t => t.v[1] == 0xFF && t.v[15] == 0) = true ∧
    stepWord 0x8127 (withV [(1, 0x07), (2, 0x07)]) (fun t => t.v[1] == 0 && t.v[15] == 1) = true := by decide

/-- A28 and A31. -/
theorem test_shl :
    stepWord 0x850E (withV [(5, 0xC1)]) (fun t => t.v[5] == 0x82 && t.v[15] == 1) = true ∧
    stepWord 0x8FFE (withV [(15, 0x81)]) (fun t => t.v[15] == 0x01) = true := by decide

/-- A33: RND draws one free value and advances; its byte is free, so the masked result is a statement, not a test. -/
theorem test_rnd : stepWord 0xC300 (withV [(3, 0x77)]) (fun t => t.pc == 0x202 && t.draws == 1) = true := by decide

/-! ### The index register and memory -/

/-- M2. -/
theorem test_ldI : stepWord 0xAFFF State.reset (fun t => t.I == 0xFFF) = true := by decide

/-- M4. -/
theorem test_addIVx :
    stepWord 0xF01E { withV [(0, 0x01)] with I := 0xFFF } (fun t => t.I == 0 && t.v[15] == 0) = true := by decide

/-- M6 and M7. -/
theorem test_ldFVx :
    stepWord 0xF229 (withV [(2, 0x05)]) (fun t => t.I == 0x069) = true ∧
    stepWord 0xF029 (withV [(0, 0x0F)]) (fun t => t.I == 0x09B) = true := by decide

/-- M9. -/
theorem test_ldFVx_range :
    stepWord 0xF029 { withV [(0, 0x10)] with I := 0x123 } (fun t =>
      isFatal t .operandRangeError 0x200 none && t.I == 0x123) = true := by decide

/-- M10 and M15. -/
theorem test_ldBVx :
    stepWord 0xF033 { withV [(0, 0xFE)] with I := 0x300 } (fun t =>
      t.readByte 0x300 == 2 && t.readByte 0x301 == 5 && t.readByte 0x302 == 4 && t.I == 0x300) = true ∧
    stepWord 0xF033 { withV [(0, 0x7B)] with I := 0xFFD } (fun t =>
      t.readByte 0xFFD == 1 && t.readByte 0xFFE == 2 && t.readByte 0xFFF == 3) = true := by decide

/-- M17: the error; the byte at 0xFFF is a free choice between old and new. -/
theorem test_ldBVx_bounds :
    stepWord 0xF033 { withV [(0, 0x7B)] with I := 0xFFF } (fun t => isFatal t .boundsError 0x200 (some 0x1000)) = true := by
  decide

/-- M18. -/
theorem test_storeRegs :
    stepWord 0xF255 { withV [(0, 1), (1, 2), (2, 3), (3, 4)] with I := 0x400 } (fun t =>
      t.readByte 0x400 == 1 && t.readByte 0x401 == 2 && t.readByte 0x402 == 3 && t.readByte 0x403 == 0 &&
        t.I == 0x400) = true := by decide

/-- M21: the error. -/
theorem test_storeRegs_bounds :
    stepWord 0xFF55 { State.reset with I := 0xFF1 } (fun t => isFatal t .boundsError 0x200 (some 0x1000)) = true := by
  decide

/-- M23: the font read back. -/
theorem test_loadRegs :
    stepWord 0xFF65 { State.reset with I := 0x050 } (fun t =>
      decide (t.v.toList = [0xF0, 0x90, 0x90, 0x90, 0xF0, 0x20, 0x60, 0x20, 0x20, 0x70, 0xF0, 0x10, 0xF0, 0x80, 0xF0, 0xF0]) &&
        t.I == 0x050) = true := by decide

/-- M25: a store is fetched by the next step. -/
theorem test_store_then_fetch :
    stepWord 0xF155 { withV [(0, 0x12), (1, 0x02)] with I := 0x202 } (fun t =>
      decide (t.runState = .normalEnd)) = true := by decide

/-! ### The display -/

/-- D15 and D16. -/
theorem test_cls :
    stepWord 0x00E0 (State.reset.toggle 3 4) (fun t => !t.fb[3][4] && t.redraw) = true ∧
    stepWord 0x00E0 State.reset (fun t => t.redraw) = true := by decide

/-- D1 (W10): clipping at the right edge. -/
theorem test_drw_clips :
    stepWord 0xD011 (sprites (withV [(0, 60)])) (fun t =>
      decide (row t 0 = litRow 60 4) && t.v[15] == 0 && t.redraw && t.pc == 0x202) = true := by decide

/-- D14: the old VF is the x coordinate, and a lit pixel under the sprite sets VF. -/
theorem test_drw_collision :
    stepWord 0xDF01 ((sprites (withV [(15, 5)])).toggle 5 0) (fun t =>
      decide (row t 0 = litRow 6 7) && t.v[15] == 1) = true := by decide

/-! ### Timers and keys -/

/-- T2, T1. -/
theorem test_tick :
    ({ State.reset with dt := 1, st := 5 }.tick.dt = 0) ∧ ({ State.reset with dt := 1, st := 5 }.tick.st = 4) ∧
    ({ State.reset with dt := 0, st := 0 }.tick.dt = 0) := by decide

/-- T4. -/
theorem test_ldVxDT : stepWord 0xF107 { State.reset with dt := 0x3C } (fun t => t.v[1] == 0x3C) = true := by decide

/-- T5. -/
theorem test_ldDTVx : stepWord 0xF015 (withV [(0, 0x3C)]) (fun t => t.dt == 0x3C) = true := by decide

/-- T6. -/
theorem test_ldSTVx : stepWord 0xF018 (withV [(0, 0x05)]) (fun t => t.st == 0x05) = true := by decide

/-- T8 and T12. -/
theorem test_skp :
    stepWord 0xE49E ((withV [(4, 0x0A)]).setKey 0xA true) (fun t => t.pc == 0x204) = true ∧
    stepWord 0xE49E (withV [(4, 0x10)]) (fun t => isFatal t .operandRangeError 0x200 none) = true := by decide

/-- T10 and T11. -/
theorem test_sknp :
    stepWord 0xE4A1 (withV [(4, 0x0A)]) (fun t => t.pc == 0x204) = true ∧
    stepWord 0xE4A1 ((withV [(4, 0x0A)]).setKey 0xA true) (fun t => t.pc == 0x202) = true := by decide

/-- T16: the entry step tests no key. -/
theorem test_ldVxK :
    stepWord 0xF30A (State.reset.setKey 7 true) (fun t =>
      decide (t.wait = some 3) && t.pc == 0x200 && t.v[3] == 0) = true := by decide

/-- T19 and T14: a wait turn. With one key pressed the free choice has one value, which decide cannot see, so the test says
what does not depend on it. -/
theorem test_waitTurn :
    nextIs (step ({ State.reset with wait := some 0xF }.setKey 0xC true)) (fun t =>
      decide (t.wait = none) && t.pc == 0x202) = true ∧
    nextIs (step { State.reset with wait := some 3 }) (fun t => decide (t.wait = some 3) && t.pc == 0x200) = true := by
  decide

/-! ### Loads by the host -/

/-- L4, L6 and R283: verbatim bytes, an unreadable source, and no load after a step. -/
theorem test_load :
    (State.reset.hostLoad (some [0x0A, 0x0D, 0x00, 0x1A])).1.readByte 0x201 = 0x0D ∧
    (State.reset.hostLoad none).2 = .loadFailed .sourceUnavailable ∧
    transact { State.reset with boot := false } (.load (some [])) = .refused .loadOutsideBoot :=
  ⟨by decide, by decide, rfl⟩

/-! ### Witnesses: states and operands that meet each statement's hypotheses, at the boundary of each clause -/

/-- A state that has just executed LD V3,K at 0x200 and waits. -/
def parked : State := { State.reset.withFetchWord 16 0xF30A with wait := some 3, boot := false }

/-- A state halted by a fetch at 0xFFF. -/
def halted : State :=
  { State.reset with pc := 0xFFF, halted := some ⟨.boundsError, 0xFFF, some 0x1000⟩, boot := false }

theorem parked_inv : parked.Inv where
  mem := by decide
  pc := by decide
  I := by decide
  stack := by decide
  diag := fun r hr => nomatch hr
  record := fun f hf => nomatch hf
  exclusive := Or.inl rfl
  parked := fun x hx => by
    obtain rfl : x = 3 := (Option.some.inj hx).symm
    exact ⟨0xF30A, by decide, by decide⟩
  boot := fun h => nomatch h

theorem halted_inv : halted.Inv where
  mem := by decide
  pc := by decide
  I := by decide
  stack := by decide
  diag := fun r hr => nomatch hr
  record := fun f hf => by
    obtain rfl : f = ⟨.boundsError, 0xFFF, some 0x1000⟩ := (Option.some.inj hf).symm
    exact ⟨rfl, rfl, rfl⟩
  exclusive := Or.inr rfl
  parked := fun x hx => nomatch hx
  boot := fun h => nomatch h

theorem witness_EncodeOfDecode : decode 0x8125 = some (.sub 1 2) ∧ decode 0xFF65 = some (.loadRegs 0xF) := by decide

theorem witness_OpcodeMapByClass : (0x0E1 : BitVec 12) ≠ 0x0E0 ∧ (0x0E1 : BitVec 12) ≠ 0x0EE := by decide

theorem witness_FetchReadsWordAtPc :
    4096 ≤ ({ State.reset with pc := 0xFFF }).pc.toNat + 1 ∧ ({ State.reset with pc := 0xFFE }).pc.toNat + 1 < 4096 := by
  decide

theorem witness_StepRunsDecodedInstruction :
    let s := { State.reset with pc := 0xFFE }.withFetchWord 16 0x7105
    s.halted = none ∧ s.wait = none ∧ s.pc.toNat + 1 < 4096 ∧
      decode (s.readByte s.pc.toNat ++ s.readByte (s.pc.toNat + 1)) = some (.addByte 1 5) := by decide

theorem witness_StepReportsUnknownWord :
    State.reset.halted = none ∧ State.reset.wait = none ∧ State.reset.fetch = .ok 0x0000 ∧ decode 0x0000 = none := by
  decide

theorem witness_StepFetchOutOfRange :
    let s := { State.reset with pc := 0xFFF }
    s.halted = none ∧ s.wait = none ∧ 4096 ≤ s.pc.toNat + 1 := by decide

theorem witness_HaltedStepDoesNothing :
    halted.halted = some ⟨.boundsError, 0xFFF, some 0x1000⟩ ∧ Transaction.tick ≠ .reset ∧
      transact halted .tick = .next (halted.tick, .done) := ⟨rfl, by decide, rfl⟩

theorem witness_WaitTurn_no_key : parked.halted = none ∧ parked.wait = some 3 ∧ ∀ k : Reg, parked.key[k] = false := by
  decide

theorem witness_WaitTurn_key :
    (parked.setKey 0xF true).halted = none ∧ (parked.setKey 0xF true).wait = some 3 ∧
      ∃ k : Reg, (parked.setKey 0xF true).key[k] = true := ⟨rfl, rfl, 0xF, by decide⟩

theorem witness_StepLeavesTimersAndKeys :
    ∃ t, step ({ withV [(0, 0x3C)] with dt := 1, redraw := true }.withFetchWord 16 0xF015) = .next t ∧ t.dt ≠ 1 :=
  ⟨_, rfl, by decide⟩

theorem witness_StepLeavesTimersAndKeys_st :
    ∃ t, step ({ withV [(0, 0x3C)] with st := 1 }.withFetchWord 16 0xF018) = .next t ∧ t.st ≠ 1 :=
  ⟨_, rfl, by decide⟩

theorem witness_SelfJumpChangesNothing :
    ({ State.reset with pc := 0xFFE }.withFetchWord 16 0x1FFE).runState = .normalEnd := by decide

theorem witness_LoadCopiesOrFails :
    State.reset.boot = true ∧ Memory.wf State.reset.mem = true ∧ 3584 < (List.replicate 3585 (0xFF : Byte)).length ∧
      (List.replicate 3584 (0xFF : Byte)).length ≤ 3584 :=
  ⟨rfl, rfl, by rw [List.length_replicate]; decide, by rw [List.length_replicate]⟩

theorem witness_LoadOnlyInBootPhase :
    parked.boot = false ∧ State.reset.boot = true ∧ Transaction.tick ≠ .step ∧ Transaction.tick ≠ .reset ∧
      transact parked .tick = .next (parked.tick, .done) ∧ (∃ t, transact parked .reset = .next (t, .done)) ∧
      parked.Inv ∧ transact parked .step = .next (parked, .stepped .waiting) :=
  ⟨rfl, rfl, by decide, by decide, rfl, ⟨_, rfl⟩, parked_inv, rfl⟩

theorem witness_StepKeepsInvariant : (parked.Inv ∧ step parked = .next parked) ∧ halted.Inv ∧ step halted = .next halted :=
  ⟨⟨parked_inv, rfl⟩, halted_inv, rfl⟩

theorem witness_TransactionKeepsInvariant :
    parked.Inv ∧ transact parked (.setKey 7 true) = .next (parked.setKey 7 true, .done) := ⟨parked_inv, rfl⟩

theorem witness_RetPopsOrUnderflows :
    (let s := { State.reset with sp := 1 }; 0 < s.sp.val ∧ s.stack[0].toNat < 4096) ∧
    (let s := { State.reset with sp := 16, stack := State.reset.stack.set 15 0xFFF };
      0 < s.sp.val ∧ s.stack[15].toNat < 4096) ∧
    State.reset.sp.val = 0 := by decide

theorem witness_JpSetsPc : (4095 : BitVec 12) = 0xFFF := rfl

theorem witness_CallPushesOrOverflows :
    State.reset.sp.val < 16 ∧ ({ State.reset with sp := 15 }).sp.val < 16 ∧ ({ State.reset with sp := 16 }).sp.val = 16 := by
  decide

theorem witness_CallThenRetReturns : ({ State.reset with sp := 15 }).sp.val < 16 := by decide

/-- The clause 'x ≠ VF' of ADD, SUB, SUBN, SHR and SHL. -/
theorem witness_destination_not_VF : (14 : Reg) ≠ VF := by decide

theorem witness_GlyphAddressOrRangeError : (withV [(0, 15)]).v[(0 : Reg)].toNat ≤ 15 ∧ 15 < (withV [(0, 16)]).v[(0 : Reg)].toNat := by
  decide

theorem witness_BcdStoresDigits :
    let s := { withV [(0, 0xFF)] with I := 0xFFD }
    Memory.wf s.mem = true ∧ s.I.toNat + 2 < 4096 := by decide

theorem witness_RegistersStored :
    let s := { State.reset with I := 0xFF0 }
    Memory.wf s.mem = true ∧ s.I.toNat + (15 : Reg).val < 4096 := by decide

theorem witness_RegistersLoaded : ({ State.reset with I := 0xFF0 }).I.toNat + (15 : Reg).val < 4096 := by decide

theorem witness_StoreFaultsPastMemory :
    (let s := { State.reset with I := 0xFFE };
      Memory.wf s.mem = true ∧ s.I.toNat < 4096 ∧ 4096 ≤ s.I.toNat + 2) ∧
    (let s := { State.reset with I := 0xFFF };
      Memory.wf s.mem = true ∧ s.I.toNat < 4096 ∧ 4096 ≤ s.I.toNat + (1 : Reg).val) := by decide

theorem witness_LoadFaultsPastMemory :
    let s := { State.reset with I := 0xFFF }
    s.I.toNat < 4096 ∧ 4096 ≤ s.I.toNat + (1 : Reg).val := by decide

/-- D6: the row past the bottom edge is not read. -/
theorem witness_DrwFlipsSpritePixels :
    ({ withV [(1, 31)] with I := 0xFFF }).spriteInMemory ((withV [(1, 31)]).v[(1 : Reg)].toNat % 32) (2 : BitVec 4).toNat := by
  unfold State.spriteInMemory
  decide

/-- The sprite's pixel (63, 31) lit and unlit: both collision clauses. -/
theorem witness_DrwFlipsSpritePixels_collision :
    (∃ (c : Fin 64) (r : Fin 32), ((sprites (withV [(0, 63), (1, 31)])).toggle 63 31).fb[c][r] = true ∧
      ((sprites (withV [(0, 63), (1, 31)])).toggle 63 31).spriteCovers 63 31 1 c r = true) ∧
    ∀ (c : Fin 64) (r : Fin 32), (sprites (withV [(0, 63), (1, 31)])).fb[c][r] = true →
      (sprites (withV [(0, 63), (1, 31)])).spriteCovers 63 31 1 c r = false :=
  ⟨⟨63, 31, by decide⟩, fun c r h => by
    rw [show (sprites (withV [(0, 63), (1, 31)])).fb = Grid.blank from rfl] at h
    simp [Grid.blank] at h⟩

theorem witness_DrwTwiceRestoresScreen :
    (0 : Reg) ≠ VF ∧ (1 : Reg) ≠ VF ∧
      (sprites (withV [(0, 60), (1, 31)])).spriteInMemory ((withV [(0, 60), (1, 31)]).v[(1 : Reg)].toNat % 32)
        (15 : BitVec 4).toNat := by
  refine ⟨by decide, by decide, ?_⟩
  unfold State.spriteInMemory
  decide

/-- D7. -/
theorem witness_DrwFaultsPastMemory :
    ({ State.reset with I := 0xFFF }).I.toNat < 4096 ∧
      ¬ ({ State.reset with I := 0xFFF }).spriteInMemory (State.reset.v[(1 : Reg)].toNat % 32) (2 : BitVec 4).toNat := by
  refine ⟨by decide, fun h => ?_⟩
  exact absurd (h 1 (by decide) (by decide)) (by decide)

theorem witness_KeySkipsOrRangeError :
    (withV [(4, 15)]).v[(4 : Reg)].toNat = (15 : Reg).val ∧ 15 < (withV [(4, 16)]).v[(4 : Reg)].toNat := by decide

theorem witness_EveryInstructionFrame : ∃ t, exec (.call 0xFFF) State.reset = .next t := ⟨_, rfl⟩

theorem witness_OnlyFlagInstructionsWriteVF :
    ∃ t, exec (.ldByte VF 7) State.reset = .next t ∧ t.v[VF] ≠ State.reset.v[VF] := ⟨_, rfl, by decide⟩

theorem witness_OnlyIndexInstructionsWriteI :
    ∃ t, exec (.ldI 0xFFF) State.reset = .next t ∧ t.I ≠ State.reset.I ∧ State.reset.I.toNat < 4096 :=
  ⟨_, rfl, by decide, by decide⟩

theorem witness_OnlyStoresChangeMemory :
    let s := { State.reset with I := 0x300 }
    (∃ t, exec (.ldBVx 0) s = .next t) ∧
      (0x2FF < s.I.toNat ∨ s.I.toNat + (Instr.ldBVx 0).storedBytes ≤ 0x2FF) ∧
      (0x303 < s.I.toNat ∨ s.I.toNat + (Instr.ldBVx 0).storedBytes ≤ 0x303) := ⟨⟨_, rfl⟩, by decide, by decide⟩

theorem witness_StepDoesNotReadOutputs : ∃ t, step State.reset = .next t := ⟨_, rfl⟩

theorem witness_StepOnlyAppendsDiag : ∃ t, step State.reset = .next t ∧ t.diag ≠ State.reset.diag := ⟨_, rfl, by decide⟩

/-- M25. -/
theorem witness_StoreSeenByNextFetch :
    let s := { withV [(0, 0x12), (1, 0x02)] with I := 0x202 }
    Memory.wf s.mem = true ∧ 1 ≤ (1 : Reg).val ∧ s.I.toNat + (1 : Reg).val < 4096 ∧ (nextPc s).toNat = s.I.toNat := by
  decide

end Sys2Proof.Tests
end

section
/-! RET and CALL (spec 41_control_flow.md): what each answers in its two cases, and the frame of the return stack. -/

namespace Sys2Proof.Machine

/-- A state that differs in pc and the return stack only. -/
theorem Unchanged.of_stack {s t : State} (regs : List Reg)
    (h : t = { s with pc := t.pc, sp := t.sp, stack := t.stack }) : Unchanged [.stack] regs s t := by
  rw [h]
  exact ⟨fun _ _ => rfl, fun _ => rfl, fun _ _ => rfl, fun h => absurd (by simp) h, fun _ => rfl, fun _ => rfl,
    fun _ => rfl, fun _ => rfl, fun _ => rfl, fun _ => rfl, fun _ => rfl, rfl, rfl⟩

/-- An address in range is not reduced (R14). -/
theorem State.setPc_pc_of_lt (s : State) {a : Word} (h : a.toNat < 4096) : (s.setPc a.toNat).pc = a := by
  rw [State.setPc_pc, Nat.mod_eq_of_lt h, BitVec.ofNat_toNat, BitVec.setWidth_eq]

/-- An address field is in range as it stands (R14, R71). -/
theorem State.setPc_addr_toNat (s : State) (nnn : BitVec 12) : (s.setPc nnn.toNat).pc.toNat = nnn.toNat := by
  rw [State.setPc_pc, toNat_ofNat_mod, Nat.mod_eq_of_lt nnn.isLt]

/-! ### RET (R29, R120, R253) -/

theorem exec_ret (s : State) : exec .ret s = execRet s := rfl

theorem exec_ret_of_pos (s : State) (h : 0 < s.sp.val) :
    exec .ret s = .next (({ s with sp := ⟨s.sp.val - 1, by omega⟩ } : State).setPc
      (s.stack[s.sp.val - 1]'(by omega)).toNat) := by
  rw [exec_ret, execRet, State.pop_of_pos s h]

theorem exec_ret_empty (s : State) (h : s.sp.val = 0) : exec .ret s = .next (s.takeFatal .stackUnderflow none) := by
  rw [exec_ret, execRet, State.pop_empty s h]

/-! ### CALL (R28, R122, R252) -/

theorem exec_call (nnn : BitVec 12) (s : State) : exec (.call nnn) s = execCall nnn s := rfl

theorem exec_call_of_lt (nnn : BitVec 12) (s : State) (h : s.sp.val < 16) :
    exec (.call nnn) s = .next
      (({ s with stack := s.stack.set s.sp.val (nextPc s), sp := ⟨s.sp.val + 1, by omega⟩ } : State).setPc
        nnn.toNat) := by
  rw [exec_call, execCall, State.advance_pc, State.push_of_lt s _ h]

theorem exec_call_full (nnn : BitVec 12) (s : State) (h : s.sp.val = 16) :
    exec (.call nnn) s = .next (s.takeFatal .stackOverflow none) := by
  rw [exec_call, execCall, State.push_full s _ h]

/-! ### The statements -/

/-- Settles O25: the pop and the underflow are the two cases of sp, and an entry below 4096 reaches pc unreduced. -/
theorem retPopsOrUnderflows : Obligations.RetPopsOrUnderflows := by
  intro s
  constructor
  · intro hpos hentry
    exact ⟨_, exec_ret_of_pos s hpos, State.setPc_pc_of_lt _ hentry, rfl, rfl, .of_stack [] rfl⟩
  · exact exec_ret_empty s

/-- Settles O27: the push and the overflow are the two cases of sp, and a push writes only the entry at the old sp. -/
theorem callPushesOrOverflows : Obligations.CallPushesOrOverflows := by
  intro nnn s
  constructor
  · intro hlt
    refine ⟨_, exec_call_of_lt nnn s hlt, State.setPc_addr_toNat _ nnn, rfl, ?_, fun k hk => ?_, .of_stack [] rfl⟩
    · exact Vector.getElem_set_self hlt
    · exact Vector.getElem_set_ne hlt k.isLt hk.symm
  · exact exec_call_full nnn s

end Sys2Proof.Machine
end

section
/-! The step engine (spec 40_step_engine.md): the fetched word as a number, and what an instruction and a step leave of the
timers, the keys and the redraw flag. -/

namespace Sys2Proof.Machine

/-! ### The fetched word (R52, R101) -/

/-- Two bytes as a big-endian number (R52). -/
theorem toNat_byte_append (hi lo : Byte) : (hi ++ lo).toNat = hi.toNat * 256 + lo.toNat := by
  rw [BitVec.toNat_append, ← Nat.shiftLeft_add_eq_or_of_lt lo.isLt, Nat.shiftLeft_eq]

/-! ### Timers, keys and redraw (R109) -/

/-- The keys and both timers are as they were, and redraw is not cleared. -/
structure KeepsTimersAndKeys (s t : State) : Prop where
  key : t.key = s.key
  redraw : s.redraw = true → t.redraw = true
  dt : t.dt = s.dt
  st : t.st = s.st

namespace KeepsTimersAndKeys

theorem refl (s : State) : KeepsTimersAndKeys s s := ⟨rfl, id, rfl, rfl⟩

theorem trans {s t u : State} (h : KeepsTimersAndKeys s t) (h' : KeepsTimersAndKeys t u) : KeepsTimersAndKeys s u :=
  ⟨h'.key.trans h.key, h'.redraw ∘ h.redraw, h'.dt.trans h.dt, h'.st.trans h.st⟩

theorem advance (s : State) : KeepsTimersAndKeys s s.advance := ⟨rfl, id, rfl, rfl⟩

theorem setV (s : State) (r : Reg) (b : Byte) : KeepsTimersAndKeys s (s.setV r b) := ⟨rfl, id, rfl, rfl⟩

theorem takeFatal (s : State) (k : ErrorKind) (a : Option Nat) : KeepsTimersAndKeys s (s.takeFatal k a) :=
  ⟨rfl, id, rfl, rfl⟩

theorem leaveBoot (s : State) : KeepsTimersAndKeys s s.leaveBoot := ⟨rfl, id, rfl, rfl⟩

theorem skipIf (s : State) (c : Bool) : KeepsTimersAndKeys s (s.skipIf c) := by
  cases c <;> exact ⟨rfl, id, rfl, rfl⟩

theorem waitTurn (s : State) (x : Reg) : KeepsTimersAndKeys s (s.waitTurn x) := by
  rw [State.waitTurn_rest]
  exact ⟨rfl, id, rfl, rfl⟩

theorem storeBlock (s : State) (bytes : List Byte) : KeepsTimersAndKeys s (s.storeBlock bytes) := by
  unfold State.storeBlock
  split <;> exact ⟨rfl, id, rfl, rfl⟩

theorem loadBlock (s : State) (n : Nat) : KeepsTimersAndKeys s (s.loadBlock n) := by
  unfold State.loadBlock
  split
  · constructor <;> simp
  · constructor <;> simp

/-- A draw sets redraw or leaves it alone (R193). -/
theorem of_drawn {P : Fin 64 → Fin 32 → Bool} {s t : State} (h : Drawn P s t) : KeepsTimersAndKeys s t where
  key := by rw [h.rest]
  redraw hs := h.redraw.mpr (.inl hs)
  dt := by rw [h.rest]
  st := by rw [h.rest]

/-- Redraw after a faulting draw is the old flag or the drawn one (R258), and neither clears it. -/
theorem drawFault {old new : State} (h : KeepsTimersAndKeys old new) (addr : Nat) :
    KeepsTimersAndKeys old (old.drawFault new addr) where
  key := rfl
  redraw hs := (oldOrNew_cases _ old.redraw new.redraw).elim (·.trans hs) (·.trans (h.redraw hs))
  dt := rfl
  st := rfl

end KeepsTimersAndKeys

/-! ### The instructions with more than one outcome -/

section
variable {s t : State}

theorem execRet_keepsTimersAndKeys (h : execRet s = .next t) : KeepsTimersAndKeys s t := by
  cases Nat.eq_zero_or_pos s.sp.val with
  | inl h0 =>
    obtain rfl := Host.Outcome.next.inj ((exec_ret_empty s h0).symm.trans h)
    exact .takeFatal s _ _
  | inr hpos =>
    obtain rfl := Host.Outcome.next.inj ((exec_ret_of_pos s hpos).symm.trans h)
    exact ⟨rfl, id, rfl, rfl⟩

theorem execCall_keepsTimersAndKeys {nnn : BitVec 12} (h : execCall nnn s = .next t) : KeepsTimersAndKeys s t := by
  cases Nat.lt_or_ge s.sp.val 16 with
  | inl hlt =>
    obtain rfl := Host.Outcome.next.inj ((exec_call_of_lt nnn s hlt).symm.trans h)
    exact ⟨rfl, id, rfl, rfl⟩
  | inr hge =>
    obtain rfl := Host.Outcome.next.inj ((exec_call_full nnn s (by omega)).symm.trans h)
    exact .takeFatal s _ _

theorem execLdFVx_keepsTimersAndKeys {x : Reg} (h : execLdFVx x s = .next t) : KeepsTimersAndKeys s t := by
  unfold execLdFVx at h
  split at h <;> cases h
  · exact .takeFatal s _ _
  · exact ⟨rfl, id, rfl, rfl⟩

theorem execSkp_keepsTimersAndKeys {x : Reg} (h : execSkp x s = .next t) : KeepsTimersAndKeys s t := by
  unfold execSkp at h
  split at h <;> cases h
  · exact .takeFatal s _ _
  · exact .skipIf s _

theorem execSknp_keepsTimersAndKeys {x : Reg} (h : execSknp x s = .next t) : KeepsTimersAndKeys s t := by
  unfold execSknp at h
  split at h <;> cases h
  · exact .takeFatal s _ _
  · exact .skipIf s _

/-- DRW clears VF before it draws (R196 step 2). -/
theorem drawRows_keepsTimersAndKeys (s : State) (x0 y0 n : Nat) :
    KeepsTimersAndKeys s ((s.setV VF 0).drawRows x0 y0 n) :=
  (KeepsTimersAndKeys.setV s VF 0).trans (.of_drawn (State.drawRows_drawn _ x0 y0 n))

theorem execDrw_keepsTimersAndKeys {x y : Reg} {n : BitVec 4} (h : execDrw x y n s = .next t) :
    KeepsTimersAndKeys s t := by
  unfold execDrw at h
  dsimp only at h
  split at h <;> cases h
  · exact (drawRows_keepsTimersAndKeys s _ _ _).trans (.advance _)
  · exact (drawRows_keepsTimersAndKeys s _ _ _).drawFault _

end

/-! ### Every instruction and every step -/

/-- An instruction keeps timers, keys and redraw, or is one of the two that write a register to a timer (R223, R224). -/
theorem exec_timers_cases {i : Instr} {s t : State} (h : exec i s = .next t) :
    KeepsTimersAndKeys s t ∨ (∃ x, i = .ldDTVx x ∧ t = { s with dt := s.v[x] }.advance) ∨
      ∃ x, i = .ldSTVx x ∧ t = { s with st := s.v[x] }.advance := by
  cases i with
  | ldDTVx x => exact .inr (.inl ⟨x, rfl, (Host.Outcome.next.inj h).symm⟩)
  | ldSTVx x => exact .inr (.inr ⟨x, rfl, (Host.Outcome.next.inj h).symm⟩)
  | cls =>
    cases h
    exact .inl ⟨rfl, fun _ => rfl, rfl, rfl⟩
  | ret => exact .inl (execRet_keepsTimersAndKeys h)
  | call => exact .inl (execCall_keepsTimersAndKeys h)
  | drw => exact .inl (execDrw_keepsTimersAndKeys h)
  | skp => exact .inl (execSkp_keepsTimersAndKeys h)
  | sknp => exact .inl (execSknp_keepsTimersAndKeys h)
  | ldFVx => exact .inl (execLdFVx_keepsTimersAndKeys h)
  | ldBVx | storeRegs =>
    cases h
    exact .inl (.storeBlock s _)
  | loadRegs =>
    cases h
    exact .inl (.loadBlock s _)
  | seByte | sneByte | seReg | sneReg =>
    cases h
    exact .inl (.skipIf s _)
  | jp | jpV0 | ldByte | addByte | ldReg | or | and | xor | addReg | sub | shr | subn | shl | rnd | ldI | addIVx
  | ldVxDT | ldVxK =>
    cases h
    exact .inl ⟨rfl, id, rfl, rfl⟩

/-- A step keeps timers, keys and redraw, or the word it fetches is one of the two that write a register to a timer. -/
theorem step_timers_cases {s t : State} (h : step s = .next t) :
    KeepsTimersAndKeys s t ∨ ∃ w x, s.fetch = .ok w ∧
      (decode w = some (.ldDTVx x) ∧ t = { s.leaveBoot with dt := s.v[x] }.advance ∨
        decode w = some (.ldSTVx x) ∧ t = { s.leaveBoot with st := s.v[x] }.advance) := by
  obtain ⟨-, rfl⟩ | ⟨x, -, -, rfl⟩ | ⟨-, -, ⟨a, -, rfl⟩ | ⟨w, -, -, rfl⟩ | ⟨w, i, hf, hd, he⟩⟩ := step_cases h
  · exact .inl (.refl _)
  · exact .inl (.waitTurn s x)
  · exact .inl ((KeepsTimersAndKeys.leaveBoot s).trans (.takeFatal _ _ _))
  · exact .inl ⟨rfl, id, rfl, rfl⟩
  · obtain hk | ⟨x, rfl, rfl⟩ | ⟨x, rfl, rfl⟩ := exec_timers_cases he
    · exact .inl ((KeepsTimersAndKeys.leaveBoot s).trans hk)
    · exact .inr ⟨w, x, hf, .inl ⟨hd, rfl⟩⟩
    · exact .inr ⟨w, x, hf, .inr ⟨hd, rfl⟩⟩

/-! ### The statements -/

/-- Settles O5: the two cases of the bounds check. -/
theorem fetchReadsWordAtPc : Obligations.FetchReadsWordAtPc := fun s =>
  ⟨s.fetch_error, fun h => ⟨_, s.fetch_ok h, toNat_byte_append _ _⟩⟩

/-- Settles O13: outside the two timer instructions a step keeps all four fields, and each of the two writes its own
timer only. -/
theorem stepLeavesTimersAndKeys : Obligations.StepLeavesTimersAndKeys := by
  intro s t h
  obtain hk | ⟨w, x, hf, ⟨hd, rfl⟩ | ⟨hd, rfl⟩⟩ := step_timers_cases h
  · exact ⟨hk.key, hk.redraw, fun hne => absurd hk.dt hne, fun hne => absurd hk.st hne⟩
  · exact ⟨rfl, id, fun _ => ⟨w, x, hf, hd, rfl⟩, fun hne => absurd rfl hne⟩
  · exact ⟨rfl, id, fun hne => absurd rfl hne, fun _ => ⟨w, x, hf, hd, rfl⟩⟩

end Sys2Proof.Machine
end

section
/-! Jumps and skips (spec 41_control_flow.md): JP addr, and one law for the four compare-and-skip instructions. -/

namespace Sys2Proof.Machine

/-! ### JP addr (R121) -/

theorem exec_jp (nnn : BitVec 12) (s : State) : exec (.jp nnn) s = .next (s.setPc nnn.toNat) := rfl

/-- No word fits at the last address of memory (R55, R101). -/
theorem State.fetch_error_of_top (s : State) (h : s.pc.toNat = 4095) : s.fetch = .error 4096 := by
  rw [s.fetch_error (by omega), h]

/-- Settles O26: an address field reaches pc unreduced, and 0xFFF is the last address of memory. -/
theorem jpSetsPc : Obligations.JpSetsPc := by
  intro nnn s
  have hpc := s.setPc_addr_toNat nnn
  refine ⟨_, exec_jp nnn s, hpc, .setPc s _ [] [], ?_⟩
  rintro rfl
  exact State.fetch_error_of_top _ hpc

/-! ### SE and SNE (R124–R127) -/

section
variable (x y : Reg) (nn : Byte) (s : State)

theorem exec_seByte : exec (.seByte x nn) s = .next (s.skipIf (s.v[x] == nn)) := rfl

theorem exec_sneByte : exec (.sneByte x nn) s = .next (s.skipIf (s.v[x] != nn)) := rfl

theorem exec_seReg : exec (.seReg x y) s = .next (s.skipIf (s.v[x] == s.v[y])) := rfl

theorem exec_sneReg : exec (.sneReg x y) s = .next (s.skipIf (s.v[x] != s.v[y])) := rfl

end

/-- An instruction that is a conditional skip on a test of `P` moves pc as `P` says and changes nothing else. -/
theorem skips_of_exec_eq_skipIf {i : Instr} {s : State} {c : Bool} {P : Prop} [Decidable P]
    (hexec : exec i s = .next (s.skipIf c)) (hc : c = true ↔ P) :
    ∃ t, exec i s = .next t ∧ t.pc = (if P then skipPc s else nextPc s) ∧ Unchanged [] [] s t :=
  ⟨s.skipIf c, hexec, by simp only [State.skipIf_pc, hc], .skipIf s c [] []⟩

/-- Settles O30: each of the four is a conditional skip, on a test of its own comparison. -/
theorem skipsOnCompare : Obligations.SkipsOnCompare := fun x y nn s =>
  ⟨skips_of_exec_eq_skipIf (exec_seByte x nn s) beq_iff_eq,
   skips_of_exec_eq_skipIf (exec_sneByte x nn s) bne_iff_ne,
   skips_of_exec_eq_skipIf (exec_seReg x y s) beq_iff_eq,
   skips_of_exec_eq_skipIf (exec_sneReg x y s) bne_iff_ne⟩

end Sys2Proof.Machine
end

section
/-! Loads and the ALU (spec 42_alu.md): ADD's result as a number, and one law for the instructions that write one register
and no flag. -/

namespace Sys2Proof.Machine

/-- The sum is reduced before it is narrowed, so narrowing loses nothing (R140, R142, R148). -/
theorem addResult_toNat (a b : Byte) : (addResult a b).toNat = (a.toNat + b.toNat) % 256 := by
  rw [addResult, BitVec.toNat_ofNat, Nat.mod_mod]

/-- An instruction that stores `b` in one register and advances writes that register only. -/
theorem writes_of_exec_eq_setV_advance {i : Instr} {s : State} {x : Reg} {b : Byte}
    (hexec : exec i s = .next (s.setV x b).advance) :
    ∃ t, exec i s = .next t ∧ t.v[x] = b ∧ t.pc = nextPc s ∧ Unchanged [] [x] s t :=
  ⟨_, hexec, getV_setV_same s x b, rfl, .setV_advance s x b []⟩

/-! ### LD Vx,byte and ADD Vx,byte (R141, R142) -/

theorem exec_ldByte (x : Reg) (nn : Byte) (s : State) : exec (.ldByte x nn) s = .next (s.setV x nn).advance := rfl

theorem exec_addByte (x : Reg) (nn : Byte) (s : State) :
    exec (.addByte x nn) s = .next (s.setV x (addResult s.v[x] nn)).advance := rfl

/-- Settles O31: both write one register, the byte itself or the reduced sum. -/
theorem immediateLoadAndAdd : Obligations.ImmediateLoadAndAdd := by
  intro x nn s
  constructor
  · exact writes_of_exec_eq_setV_advance (exec_ldByte x nn s)
  · obtain ⟨t, hexec, hv, hpc, hframe⟩ := writes_of_exec_eq_setV_advance (exec_addByte x nn s)
    exact ⟨t, hexec, hv ▸ addResult_toNat s.v[x] nn, hpc, hframe⟩

end Sys2Proof.Machine
end

section
/-! The display (spec 44_display.md): the host's two screen transactions, CLS, and DRW when every drawn row lies in
memory. -/

namespace Sys2Proof.Machine

/-! ### snapshot and clear_redraw (R191, R192) -/

theorem transact_snapshot (s : State) : transact s .snapshot = .next (s, .frame s.fb s.redraw) := rfl

theorem transact_clearRedraw (s : State) : transact s .clearRedraw = .next (s.clearRedraw, .done) := rfl

/-- Settles O20: the two transactions as they stand; clear_redraw writes the one field. -/
theorem snapshotReadsClearRedrawClears : Obligations.SnapshotReadsClearRedrawClears := fun s =>
  ⟨transact_snapshot s, _, transact_clearRedraw s, rfl, rfl⟩

/-! ### The frame of the display instructions -/

/-- A state that differs in the screen, redraw, pc and V registers only. -/
theorem Unchanged.of_screen {s t : State} {regs : List Reg}
    (h : t = { s with v := t.v, fb := t.fb, redraw := t.redraw, pc := t.pc })
    (hr : ∀ r : Reg, r ∉ regs → t.v[r] = s.v[r]) : Unchanged [.screen, .redraw] regs s t := by
  rw [h]
  exact ⟨hr, fun _ => rfl, fun _ _ => rfl, fun _ => ⟨rfl, rfl⟩, fun _ => rfl, fun _ => rfl, fun h => absurd (by simp) h,
    fun h => absurd (by simp) h, fun _ => rfl, fun _ => rfl, fun _ => rfl, rfl, rfl⟩

/-! ### CLS (R194) -/

theorem exec_cls (s : State) : exec .cls s = .next { s with fb := Grid.blank, redraw := true }.advance := rfl

theorem Grid.getElem_blank (c : Fin 64) (r : Fin 32) : Grid.blank[c][r] = false := by
  simp [Grid.blank]

/-- Settles O45: CLS writes the blank grid and a set redraw whatever was there. -/
theorem clsBlanksScreen : Obligations.ClsBlanksScreen := fun s =>
  ⟨_, exec_cls s, Grid.getElem_blank, rfl, rfl, .of_screen rfl fun _ _ => rfl⟩

/-! ### DRW (R193, R196–R198) -/

theorem exec_drw (x y : Reg) (n : BitVec 4) (s : State) : exec (.drw x y n) s = execDrw x y n s := rfl

/-- The anchor's row is on the screen (R196, step 1). -/
theorem anchorY_lt (b : Byte) : anchorY b < 32 := Nat.mod_lt _ (by decide)

/-- With every drawn row in memory, DRW clears VF, draws all its rows and advances pc (R196, R201). -/
theorem exec_drw_ok {x y : Reg} {n : BitVec 4} {s : State} (h : s.spriteInMemory (anchorY s.v[y]) n.toNat) :
    exec (.drw x y n) s =
      .next ((s.setV VF 0).drawRows (anchorX s.v[x]) (anchorY s.v[y]) n.toNat).advance := by
  have hrows := (firstOutOfRange_rows s (anchorY_lt s.v[y])).mpr h
  simp only [exec_drw, execDrw, hrows]

/-- The rows drawn after VF is cleared flip what the sprite covers in the state before: neither I nor memory has changed. -/
theorem State.drawRows_setV_drawn (s : State) (r : Reg) (b : Byte) (x0 y0 n : Nat) :
    Drawn (s.spriteCovers x0 y0 n) (s.setV r b) ((s.setV r b).drawRows x0 y0 n) :=
  State.drawRows_drawn (s.setV r b) x0 y0 n

section
variable {P : Fin 64 → Fin 32 → Bool} {s t : State}

/-- A draw changes no field that next(pc) reads. -/
theorem Drawn.nextPc_eq (h : Drawn P s t) : nextPc t = nextPc s := by
  rw [h.rest]
  rfl

/-- A draw that starts with VF written changes, up to pc, the screen, redraw and VF only. -/
theorem Drawn.unchanged_advance {b : Byte} (h : Drawn P (s.setV VF b) t) :
    Unchanged [.screen, .redraw] [VF] s t.advance := by
  refine .of_screen ?_ fun r hr => ?_
  · rw [h.rest]
    rfl
  · have hne : r ≠ VF := by simpa using hr
    exact (h.regs r hne).trans (getV_setV_other s hne.symm b)

end

/-- Settles O46: the rows drawn after VF is cleared flip exactly the sprite's pixels, so VF ends at 1 by a collision and
else at the 0 of step 2. -/
theorem drwFlipsSpritePixels : Obligations.DrwFlipsSpritePixels := by
  intro x y n s hmem
  have hdrawn := s.drawRows_setV_drawn VF 0 (anchorX s.v[x]) (anchorY s.v[y]) n.toNat
  refine ⟨_, exec_drw_ok hmem, hdrawn.fb, ?_, fun hclear => ?_, hdrawn.redraw, ?_, hdrawn.unchanged_advance⟩
  · rintro ⟨c, r, hon, hcovered⟩
    exact hdrawn.hit c r hon hcovered
  · exact (hdrawn.miss hclear).trans (getV_setV_same s VF 0)
  · exact hdrawn.nextPc_eq

end Sys2Proof.Machine
end

section
/-! Timers (spec 45_timers_keys.md): the instruction that reads DT and the two that write a timer. -/

namespace Sys2Proof.Machine

theorem exec_ldVxDT (x : Reg) (s : State) : exec (.ldVxDT x) s = .next (s.setV x s.dt).advance := rfl

theorem exec_ldDTVx (x : Reg) (s : State) : exec (.ldDTVx x) s = .next { s with dt := s.v[x] }.advance := rfl

theorem exec_ldSTVx (x : Reg) (s : State) : exec (.ldSTVx x) s = .next { s with st := s.v[x] }.advance := rfl

/-- A write to the delay timer, then an advance, changes that timer and pc only. -/
theorem Unchanged.setDt_advance (s : State) (b : Byte) (regs : List Reg) :
    Unchanged [.delayTimer] regs s { s with dt := b }.advance :=
  ⟨fun _ _ => rfl, fun _ => rfl, fun _ _ => rfl, fun _ => ⟨rfl, rfl⟩, fun h => absurd (List.mem_singleton_self _) h,
    fun _ => rfl, fun _ => rfl, fun _ => rfl, fun _ => rfl, fun _ => rfl, fun _ => rfl, rfl, rfl⟩

/-- A write to the sound timer, then an advance, changes that timer and pc only. -/
theorem Unchanged.setSt_advance (s : State) (b : Byte) (regs : List Reg) :
    Unchanged [.soundTimer] regs s { s with st := b }.advance :=
  ⟨fun _ _ => rfl, fun _ => rfl, fun _ _ => rfl, fun _ => ⟨rfl, rfl⟩, fun _ => rfl,
    fun h => absurd (List.mem_singleton_self _) h, fun _ => rfl, fun _ => rfl, fun _ => rfl, fun _ => rfl, fun _ => rfl,
    rfl, rfl⟩

/-- Settles O50: the read is a plain register write (R222); each of the other two writes its own timer and no other field
but pc (R223, R224). -/
theorem timerReadsAndWrites : Obligations.TimerReadsAndWrites := fun x s =>
  ⟨writes_of_exec_eq_setV_advance (exec_ldVxDT x s),
   ⟨_, exec_ldDTVx x s, rfl, rfl, .setDt_advance s _ []⟩,
   ⟨_, exec_ldSTVx x s, rfl, rfl, .setSt_advance s _ []⟩⟩

end Sys2Proof.Machine
end

section
/-! Reset and load (spec 70_reset_and_hazards.md): what reset leaves in memory, byte by byte, and the three outcomes of a
load in the boot phase. -/

namespace Sys2Proof.Machine

/-! ### Memory after reset (R34, R281) -/

/-- R34: the table fills 0x050..0x09F. -/
theorem font_length : font.length = 80 := rfl

theorem resetByte_outside_font {a : Nat} (h : a < 0x050 ∨ 0x09F < a) : resetByte a = 0 := by
  cases h with
  | inl hbelow => exact if_neg (Nat.not_le.mpr hbelow)
  | inr habove =>
    have hpast : font.length ≤ a - 0x050 := by rw [font_length]; omega
    exact (if_pos (show 0x050 ≤ a by omega)).trans (List.getD_eq_default _ _ hpast)

theorem resetByte_font {k : Nat} (h : k < 80) : resetByte (0x050 + k) = font[k]'(font_length ▸ h) := by
  rw [resetByte, if_pos (Nat.le_add_right _ k), Nat.add_sub_cancel_left, List.getD_eq_getElem]

/-! ### reset (R280, R281) -/

theorem transact_reset (s : State) : transact s .reset = .next (s.hostReset, .done) := rfl

/-- The reset state lists no memory cell, so every address reads as after reset. -/
theorem State.hostReset_readByte (s : State) (a : Nat) : s.hostReset.readByte a = resetByte a := rfl

theorem State.hostReset_getV (s : State) (r : Reg) : s.hostReset.v[r] = 0 := Vector.getElem_replicate r.isLt

/-- Settles O15: a byte of memory is a byte of the font table inside 0x050..0x09F and 0 outside it, and the registers are
the reset state's own. -/
theorem resetLeavesDocumentedValues : Obligations.ResetLeavesDocumentedValues := fun s =>
  ⟨s.hostReset, transact_reset s, fun a ha => (s.hostReset_readByte a).trans (resetByte_outside_font ha),
    fun _ hk => (s.hostReset_readByte _).trans (resetByte_font hk), s.hostReset_getV, rfl, rfl, rfl⟩

/-! ### load (R283–R286) -/

theorem transact_load_of_boot {s : State} (h : s.boot = true) (src : Option (List Byte)) :
    transact s (.load src) = .next (s.hostLoad src) := if_pos h

theorem State.hostLoad_unreadable (s : State) : s.hostLoad none = (s, .loadFailed .sourceUnavailable) := rfl

theorem State.hostLoad_too_long (s : State) {bytes : List Byte} (h : 3584 < bytes.length) :
    s.hostLoad (some bytes) = (s, .loadFailed .capacityExceeded) := if_neg (Nat.not_le.mpr h)

theorem State.hostLoad_fits (s : State) {bytes : List Byte} (h : bytes.length ≤ 3584) :
    s.hostLoad (some bytes) = (s.loadRom bytes, .loaded) := if_pos h

/-- A ROM of at most 3584 bytes ends inside memory, so each of its bytes reads back (R285). -/
theorem State.loadRom_readByte_inside {s : State} (hm : Memory.wf s.mem = true) {bytes : List Byte}
    (hlen : bytes.length ≤ 3584) {k : Nat} (hk : k < bytes.length) :
    (s.loadRom bytes).readByte (0x200 + k) = bytes[k] :=
  Memory.read_storeBytes_inside (base := 0x200) hm bytes (by omega) hk

theorem State.loadRom_readByte_outside (s : State) (bytes : List Byte) {a : Nat}
    (h : a < 0x200 ∨ 0x200 + bytes.length ≤ a) : (s.loadRom bytes).readByte a = s.readByte a :=
  Memory.read_storeBytes_outside s.mem bytes h

/-- Settles O17: in the boot phase the reply turns on the source alone, and the load that succeeds is a block store at
0x200. -/
theorem loadCopiesOrFails : Obligations.LoadCopiesOrFails := by
  intro s hboot hmem
  simp only [transact_load_of_boot hboot]
  refine ⟨congrArg _ s.hostLoad_unreadable, fun bytes => ⟨fun hlong => ?_, fun hfits => ?_⟩⟩
  · rw [s.hostLoad_too_long hlong]
  · exact ⟨s.loadRom bytes, congrArg _ (s.hostLoad_fits hfits), rfl,
      fun _ => State.loadRom_readByte_inside hmem hfits, fun _ => s.loadRom_readByte_outside bytes⟩

end Sys2Proof.Machine
end

section
/-! The encoding (spec 30_encoding.md): an instruction's word and its row of R81 in both directions, and decoding class
by class. -/

namespace Sys2Proof

/-! ### The row of an instruction (R81) -/

theorem Instr.ctorIdx_lt (i : Instr) : i.ctorIdx < opcodeTable.length := by
  cases i <;> exact of_decide_eq_true rfl

/-- The row of R81 for an instruction: rows and constructors stand in the same order. -/
def Instr.row (i : Instr) : Row := opcodeTable[i.ctorIdx]'i.ctorIdx_lt

theorem Instr.row_mem (i : Instr) : i.row ∈ opcodeTable := List.getElem_mem _

/-- An instruction's word matches its own row, in each of the table's mask shapes. -/
theorem Instr.row_covers_encode (i : Instr) : i.row.covers (encode i) = true := by
  apply beq_iff_eq.mpr
  cases i with
  | cls | ret => rfl
  | jp | call | ldI | jpV0 => exact (encodeAddr_and_class _ _).trans rfl
  | seByte | sneByte | ldByte | addByte | rnd => exact (encodeByte_and_class _ _ _).trans rfl
  | seReg | sneReg | ldReg | or | and | xor | addReg | sub | shr | subn | shl =>
    exact (encodeRegs_and_selector _ _ _ _).trans rfl
  | drw => exact (encodeRegs_and_class _ _ _ _).trans rfl
  | skp | sknp | ldVxDT | ldVxK | ldDTVx | ldSTVx | addIVx | ldFVx | ldBVx | storeRegs | loadRegs =>
    exact (encodeByte_and_selector _ _ _).trans rfl

/-- The row reads the instruction's operands back from its word. -/
theorem Instr.row_build_encode (i : Instr) : i.row.build (encode i) = i := by
  cases i with
  | cls | ret => rfl
  | _ => simp [Instr.row, opcodeTable, rowsControl, rowsAlu, rowsIndex, rowsMisc, Instr.ctorIdx, encode]

theorem decode_encode (i : Instr) : decode (encode i) = some i := by
  rw [decode_of_row i.row_mem i.row_covers_encode, i.row_build_encode]

/-- Settles O2: the word decodes by the instruction's own row, which reads the operands back. -/
theorem decodeOfEncode : Obligations.DecodeOfEncode := decode_encode

/-! ### The word of a row (R81) -/

/-- Every word the row covers is the encoding of what the row builds from it. -/
def Row.Faithful (r : Row) : Prop := ∀ w, r.covers w = true → encode (r.build w) = w

namespace Row.Faithful

theorem word {i : Instr} {p : Word} (h : encode i = p) : Faithful ⟨0xFFFF, p, fun _ => i⟩ := fun w hw => by
  have hmask : w &&& 0xFFFF#16 = w := BitVec.and_allOnes
  rw [h, ← hmask]
  exact (beq_iff_eq.mp hw).symm

variable (c : BitVec 4)

theorem addr {mk : BitVec 12 → Instr} (h : ∀ nnn, encode (mk nnn) = encodeAddr c nnn) :
    Faithful ⟨0xF000, encodeAddr c 0, fun w => mk (fieldNNN w)⟩ := fun _ hw =>
  (h _).trans (encodeAddr_of_class c (beq_iff_eq.mp hw))

theorem byte {mk : Reg → Byte → Instr} (h : ∀ x nn, encode (mk x nn) = encodeByte c x nn) :
    Faithful ⟨0xF000, encodeAddr c 0, fun w => mk (fieldX w) (fieldNN w)⟩ := fun _ hw =>
  (h _ _).trans (encodeByte_of_class c (beq_iff_eq.mp hw))

theorem draw {mk : Reg → Reg → BitVec 4 → Instr} (h : ∀ x y n, encode (mk x y n) = encodeRegs c x y n) :
    Faithful ⟨0xF000, encodeAddr c 0, fun w => mk (fieldX w) (fieldY w) (fieldN w)⟩ := fun _ hw =>
  (h _ _ _).trans (encodeRegs_of_class c (beq_iff_eq.mp hw))

theorem regs (n : BitVec 4) {mk : Reg → Reg → Instr} (h : ∀ x y, encode (mk x y) = encodeRegs c x y n) :
    Faithful ⟨0xF00F, encodeRegs c 0 0 n, fun w => mk (fieldX w) (fieldY w)⟩ := fun _ hw =>
  (h _ _).trans (encodeRegs_of_selector c n (beq_iff_eq.mp hw))

theorem reg (nn : Byte) {mk : Reg → Instr} (h : ∀ x, encode (mk x) = encodeByte c x nn) :
    Faithful ⟨0xF0FF, encodeByte c 0 nn, fun w => mk (fieldX w)⟩ := fun _ hw =>
  (h _).trans (encodeByte_of_selector c nn (beq_iff_eq.mp hw))

end Row.Faithful

theorem rowsControl_faithful : ∀ r ∈ rowsControl, r.Faithful := by
  simp only [rowsControl, List.forall_mem_cons, List.not_mem_nil, false_imp_iff, implies_true, and_true]
  exact ⟨.word rfl, .word rfl, .addr 1 fun _ => rfl, .addr 2 fun _ => rfl, .byte 3 fun _ _ => rfl,
    .byte 4 fun _ _ => rfl, .regs 5 0 fun _ _ => rfl, .byte 6 fun _ _ => rfl, .byte 7 fun _ _ => rfl⟩

theorem rowsAlu_faithful : ∀ r ∈ rowsAlu, r.Faithful := by
  simp only [rowsAlu, List.forall_mem_cons, List.not_mem_nil, false_imp_iff, implies_true, and_true]
  exact ⟨.regs 8 0 fun _ _ => rfl, .regs 8 1 fun _ _ => rfl, .regs 8 2 fun _ _ => rfl, .regs 8 3 fun _ _ => rfl,
    .regs 8 4 fun _ _ => rfl, .regs 8 5 fun _ _ => rfl, .regs 8 6 fun _ _ => rfl, .regs 8 7 fun _ _ => rfl,
    .regs 8 0xE fun _ _ => rfl, .regs 9 0 fun _ _ => rfl⟩

theorem rowsIndex_faithful : ∀ r ∈ rowsIndex, r.Faithful := by
  simp only [rowsIndex, List.forall_mem_cons, List.not_mem_nil, false_imp_iff, implies_true, and_true]
  exact ⟨.addr 0xA fun _ => rfl, .addr 0xB fun _ => rfl, .byte 0xC fun _ _ => rfl, .draw 0xD fun _ _ _ => rfl,
    .reg 0xE 0x9E fun _ => rfl, .reg 0xE 0xA1 fun _ => rfl⟩

theorem rowsMisc_faithful : ∀ r ∈ rowsMisc, r.Faithful := by
  simp only [rowsMisc, List.forall_mem_cons, List.not_mem_nil, false_imp_iff, implies_true, and_true]
  exact ⟨.reg 0xF 0x07 fun _ => rfl, .reg 0xF 0x0A fun _ => rfl, .reg 0xF 0x15 fun _ => rfl,
    .reg 0xF 0x18 fun _ => rfl, .reg 0xF 0x1E fun _ => rfl, .reg 0xF 0x29 fun _ => rfl,
    .reg 0xF 0x33 fun _ => rfl, .reg 0xF 0x55 fun _ => rfl, .reg 0xF 0x65 fun _ => rfl⟩

theorem opcodeTable_faithful : ∀ r ∈ opcodeTable, r.Faithful := by
  simp only [opcodeTable, List.forall_mem_append]
  exact ⟨⟨⟨rowsControl_faithful, rowsAlu_faithful⟩, rowsIndex_faithful⟩, rowsMisc_faithful⟩

theorem encode_of_decode {w : Word} {i : Instr} (h : decode w = some i) : encode i = w := by
  obtain ⟨r, hr, hcovers, rfl⟩ := row_of_decode h
  exact opcodeTable_faithful r hr w hcovers

/-- Settles O3: the row that covers the word is faithful. -/
theorem encodeOfDecode : Obligations.EncodeOfDecode := fun _ _ => encode_of_decode

/-! ### Decoding within a class (R75–R80) -/

/-- The decoding of `w` by the rows of a list. -/
def decodeIn (rows : List Row) (w : Word) : Option Instr := (rows.find? (·.covers w)).map (·.build w)

theorem decodeIn_nil (w : Word) : decodeIn [] w = none := rfl

theorem decodeIn_cons (r : Row) (rows : List Row) (w : Word) :
    decodeIn (r :: rows) w = if r.covers w then some (r.build w) else decodeIn rows w := by
  unfold decodeIn
  split <;> simp [*]

/-- The rows of the table whose pattern is of class `c`. -/
def rowsOfClass (c : BitVec 4) : List Row := opcodeTable.filter (·.pattern &&& 0xF000#16 == encodeAddr c 0)

/-- Every row fixes all four class bits. -/
theorem opcodeTable_mask_class : ∀ r ∈ opcodeTable, r.mask &&& 0xF000#16 = 0xF000#16 := by decide

/-- A row covers only words of its own class. -/
theorem Row.class_of_covers {r : Row} (hr : r ∈ opcodeTable) {w : Word} (h : r.covers w = true) :
    r.pattern &&& 0xF000#16 = w &&& 0xF000#16 := by
  rw [← beq_iff_eq.mp h, BitVec.and_assoc, opcodeTable_mask_class r hr]

/-- A word of class `c` decodes by the rows of class `c` alone. -/
theorem decode_of_class {c : BitVec 4} {w : Word} (h : w &&& 0xF000#16 = encodeAddr c 0) :
    decode w = decodeIn (rowsOfClass c) w := by
  have hfind : opcodeTable.find? (·.covers w) = (rowsOfClass c).find? (·.covers w) := by
    rw [rowsOfClass, List.find?_filter]
    refine List.find?_congr fun r hr => ?_
    by_cases hcovers : r.covers w = true
    · simp [hcovers, Row.class_of_covers hr hcovers, h]
    · simp [hcovers]
  rw [decode, hfind, decodeIn]

/-! ### Words of the statement as encodings, and the rows that cover them -/

section
variable (c : BitVec 4)

theorem append_eq_encodeByte (x : BitVec 4) (nn : Byte) : c ++ x ++ nn = encodeByte c x.toFin nn :=
  BitVec.append_assoc

theorem append_eq_encodeRegs (x y n : BitVec 4) : c ++ x ++ y ++ n = encodeRegs c x.toFin y.toFin n :=
  (BitVec.append_assoc (x₁ := c ++ x)).trans (BitVec.append_assoc (x₁ := c) (x₂ := x) (x₃ := y ++ n))

theorem decode_encodeAddr (nnn : BitVec 12) :
    decode (encodeAddr c nnn) = decodeIn (rowsOfClass c) (encodeAddr c nnn) :=
  decode_of_class (encodeAddr_and_class c nnn)

theorem decode_append_byte (x : BitVec 4) (nn : Byte) :
    decode (c ++ x ++ nn) = decodeIn (rowsOfClass c) (encodeByte c x.toFin nn) := by
  rw [append_eq_encodeByte, decode_of_class ((encodeByte_and_class _ _ _).trans rfl)]

theorem decode_append_regs (x y n : BitVec 4) :
    decode (c ++ x ++ y ++ n) = decodeIn (rowsOfClass c) (encodeRegs c x.toFin y.toFin n) := by
  rw [append_eq_encodeRegs, decode_of_class ((encodeRegs_and_class _ _ _ _).trans rfl)]

end

section
variable {c : BitVec 4} {p : Word} (b : Word → Instr)

/-- A row of two registers selects by the low nibble (R77, R78). -/
theorem Row.covers_encodeRegs_iff (hp : p = encodeRegs c 0 0 (fieldN p)) (x y : Reg) (n : BitVec 4) :
    (Row.mk 0xF00F p b).covers (encodeRegs c x y n) = true ↔ n = fieldN p := by
  rw [Row.covers, beq_iff_eq, show (Row.mk 0xF00F p b).mask = 0xF00F#16 from rfl, encodeRegs_and_selector]
  refine ⟨fun h => ?_, fun h => (congrArg _ h).trans hp.symm⟩
  exact (fieldN_encodeRegs c 0 0 n).symm.trans (congrArg fieldN h)

/-- A row of one register selects by the low byte (R79, R80). -/
theorem Row.covers_encodeByte_iff (hp : p = encodeByte c 0 (fieldNN p)) (x : Reg) (nn : Byte) :
    (Row.mk 0xF0FF p b).covers (encodeByte c x nn) = true ↔ nn = fieldNN p := by
  rw [Row.covers, beq_iff_eq, show (Row.mk 0xF0FF p b).mask = 0xF0FF#16 from rfl, encodeByte_and_selector]
  refine ⟨fun h => ?_, fun h => (congrArg _ h).trans hp.symm⟩
  exact (fieldNN_encodeByte c 0 nn).symm.trans (congrArg fieldNN h)

/-- A row without operands is one word (R75). -/
theorem Row.covers_encodeAddr_iff (hp : p = encodeAddr c (fieldNNN p)) (nnn : BitVec 12) :
    (Row.mk 0xFFFF p b).covers (encodeAddr c nnn) = true ↔ nnn = fieldNNN p := by
  have hmask : encodeAddr c nnn &&& 0xFFFF#16 = encodeAddr c nnn := BitVec.and_allOnes
  rw [Row.covers, beq_iff_eq, show (Row.mk 0xFFFF p b).mask = 0xFFFF#16 from rfl, hmask]
  refine ⟨fun h => ?_, fun h => (congrArg _ h).trans hp.symm⟩
  exact (fieldNNN_encodeAddr c nnn).symm.trans (congrArg fieldNNN h)

end

/-! ### The classes with a selector -/

theorem decode_class_zero {nnn : BitVec 12} (h1 : nnn ≠ 0x0E0) (h2 : nnn ≠ 0x0EE) : decode (0x0#4 ++ nnn) = none := by
  rw [← encodeAddr, decode_encodeAddr, show rowsOfClass 0x0#4 = rowsControl.take 2 from rfl]
  simp only [rowsControl, List.take, decodeIn_cons, decodeIn_nil]
  rw [if_neg, if_neg]
  · rwa [Row.covers_encodeAddr_iff _ rfl]
  · rwa [Row.covers_encodeAddr_iff _ rfl]

theorem decode_class_five (x y n : BitVec 4) :
    decode (0x5#4 ++ x ++ y ++ n) = if n = 0 then some (.seReg x.toFin y.toFin) else none := by
  rw [decode_append_regs, show rowsOfClass 0x5#4 = [⟨0xF00F, 0x5000, fun w => .seReg (fieldX w) (fieldY w)⟩] from rfl]
  simp (disch := decide) only [decodeIn_cons, decodeIn_nil, Row.covers_encodeRegs_iff, fieldX_encodeRegs,
    fieldY_encodeRegs]
  rfl

theorem decode_class_nine (x y n : BitVec 4) :
    decode (0x9#4 ++ x ++ y ++ n) = if n = 0 then some (.sneReg x.toFin y.toFin) else none := by
  rw [decode_append_regs, show rowsOfClass 0x9#4 = rowsAlu.drop 9 from rfl]
  simp (disch := decide) only [rowsAlu, List.drop, decodeIn_cons, decodeIn_nil, Row.covers_encodeRegs_iff,
    fieldX_encodeRegs, fieldY_encodeRegs]
  rfl

theorem decode_class_eight (x y n : BitVec 4) :
    decode (0x8#4 ++ x ++ y ++ n) =
    if n = 0x0 then some (.ldReg x.toFin y.toFin) else if n = 0x1 then some (.or x.toFin y.toFin)
    else if n = 0x2 then some (.and x.toFin y.toFin) else if n = 0x3 then some (.xor x.toFin y.toFin)
    else if n = 0x4 then some (.addReg x.toFin y.toFin) else if n = 0x5 then some (.sub x.toFin y.toFin)
    else if n = 0x6 then some (.shr x.toFin y.toFin) else if n = 0x7 then some (.subn x.toFin y.toFin)
    else if n = 0xE then some (.shl x.toFin y.toFin) else none := by
  rw [decode_append_regs, show rowsOfClass 0x8#4 = rowsAlu.take 9 from rfl]
  simp (disch := decide) only [rowsAlu, List.take, decodeIn_cons, decodeIn_nil, Row.covers_encodeRegs_iff,
    fieldX_encodeRegs, fieldY_encodeRegs]
  rfl

theorem decode_class_E (x : BitVec 4) (nn : Byte) :
    decode (0xE#4 ++ x ++ nn) =
    if nn = 0x9E then some (.skp x.toFin) else if nn = 0xA1 then some (.sknp x.toFin) else none := by
  rw [decode_append_byte, show rowsOfClass 0xE#4 = rowsIndex.drop 4 from rfl]
  simp (disch := decide) only [rowsIndex, List.drop, decodeIn_cons, decodeIn_nil, Row.covers_encodeByte_iff,
    fieldX_encodeByte]
  rfl

theorem decode_class_F (x : BitVec 4) (nn : Byte) :
    decode (0xF#4 ++ x ++ nn) =
    if nn = 0x07 then some (.ldVxDT x.toFin) else if nn = 0x0A then some (.ldVxK x.toFin)
    else if nn = 0x15 then some (.ldDTVx x.toFin) else if nn = 0x18 then some (.ldSTVx x.toFin)
    else if nn = 0x1E then some (.addIVx x.toFin) else if nn = 0x29 then some (.ldFVx x.toFin)
    else if nn = 0x33 then some (.ldBVx x.toFin) else if nn = 0x55 then some (.storeRegs x.toFin)
    else if nn = 0x65 then some (.loadRegs x.toFin) else none := by
  rw [decode_append_byte, show rowsOfClass 0xF#4 = rowsMisc from rfl]
  simp (disch := decide) only [rowsMisc, decodeIn_cons, decodeIn_nil, Row.covers_encodeByte_iff, fieldX_encodeByte]
  rfl

/-- Settles O1: the known words are encodings, and no row covers the unknown ones. -/
theorem sampleWordsDecode : Obligations.SampleWordsDecode := by
  unfold Obligations.SampleWordsDecode
  decide

/-- Settles O4: a class with a selector decodes by its own rows, one test of the selector each, and the known words of
the others are encodings. -/
theorem opcodeMapByClass : Obligations.OpcodeMapByClass := by
  refine ⟨decode_encode .cls, decode_encode .ret, fun _ => decode_class_zero,
    fun nnn =>
      ⟨decode_encode (.jp nnn), decode_encode (.call nnn), decode_encode (.ldI nnn), decode_encode (.jpV0 nnn)⟩,
    fun x nn => ?_, fun x y n => ?_, fun x y n => ⟨decode_class_five x y n, decode_class_nine x y n⟩,
    decode_class_eight, decode_class_E, decode_class_F⟩
  · simp only [append_eq_encodeByte]
    exact ⟨decode_encode (.seByte _ _), decode_encode (.sneByte _ _), decode_encode (.ldByte _ _),
      decode_encode (.addByte _ _), decode_encode (.rnd _ _)⟩
  · rw [append_eq_encodeRegs]
    exact decode_encode (.drw _ _ _)

end Sys2Proof
end

section
/-! Frames (spec 10_state.md): how frames compose and widen, and the frames of the index register and the key wait. -/

namespace Sys2Proof.Machine

namespace Unchanged

variable {parts parts' : List Part} {regs regs' : List Reg} {s t u : State}

theorem trans (h : Unchanged parts regs s t) (h' : Unchanged parts regs t u) : Unchanged parts regs s u where
  registers r hr := (h'.registers r hr).trans (h.registers r hr)
  index hp := (h'.index hp).trans (h.index hp)
  memory hp a := (h'.memory hp a).trans (h.memory hp a)
  stack hp := ⟨(h'.stack hp).1.trans (h.stack hp).1, (h'.stack hp).2.trans (h.stack hp).2⟩
  delayTimer hp := (h'.delayTimer hp).trans (h.delayTimer hp)
  soundTimer hp := (h'.soundTimer hp).trans (h.soundTimer hp)
  screen hp := (h'.screen hp).trans (h.screen hp)
  redraw hp := (h'.redraw hp).trans (h.redraw hp)
  wait hp := (h'.wait hp).trans (h.wait hp)
  halted hp := (h'.halted hp).trans (h.halted hp)
  diag hp := (h'.diag hp).trans (h.diag hp)
  key := h'.key.trans h.key
  boot := h'.boot.trans h.boot

/-- A frame holds with more parts and registers named. -/
theorem mono (h : Unchanged parts regs s t) (hparts : parts ⊆ parts') (hregs : regs ⊆ regs') :
    Unchanged parts' regs' s t where
  registers r hr := h.registers r fun hm => hr (hregs hm)
  index hp := h.index fun hm => hp (hparts hm)
  memory hp := h.memory fun hm => hp (hparts hm)
  stack hp := h.stack fun hm => hp (hparts hm)
  delayTimer hp := h.delayTimer fun hm => hp (hparts hm)
  soundTimer hp := h.soundTimer fun hm => hp (hparts hm)
  screen hp := h.screen fun hm => hp (hparts hm)
  redraw hp := h.redraw fun hm => hp (hparts hm)
  wait hp := h.wait fun hm => hp (hparts hm)
  halted hp := h.halted fun hm => hp (hparts hm)
  diag hp := h.diag fun hm => hp (hparts hm)
  key := h.key
  boot := h.boot

/-- A write to the index register, then an advance, changes I and pc only. -/
theorem setI_advance (s : State) (a : Nat) (regs : List Reg) : Unchanged [.index] regs s (s.setI a).advance :=
  ⟨fun _ _ => rfl, fun h => absurd (List.mem_singleton_self _) h, fun _ _ => rfl, fun _ => ⟨rfl, rfl⟩, fun _ => rfl,
    fun _ => rfl, fun _ => rfl, fun _ => rfl, fun _ => rfl, fun _ => rfl, fun _ => rfl, rfl, rfl⟩

/-- A state that differs in the wait, pc and V registers only. -/
theorem of_wait (h : t = { s with v := t.v, pc := t.pc, wait := t.wait, draws := t.draws })
    (hr : ∀ r : Reg, r ∉ regs → t.v[r] = s.v[r]) : Unchanged [.wait] regs s t := by
  rw [h]
  exact ⟨hr, fun _ => rfl, fun _ _ => rfl, fun _ => ⟨rfl, rfl⟩, fun _ => rfl, fun _ => rfl, fun _ => rfl, fun _ => rfl,
    fun h => absurd (List.mem_singleton_self _) h, fun _ => rfl, fun _ => rfl, rfl, rfl⟩

/-- A write to memory, then an advance, changes memory and pc only. -/
theorem setMem_advance (s : State) (m : Memory) (regs : List Reg) :
    Unchanged [.memory] regs s { s with mem := m }.advance :=
  ⟨fun _ _ => rfl, fun _ => rfl, fun h => absurd (List.mem_singleton_self _) h, fun _ => ⟨rfl, rfl⟩, fun _ => rfl,
    fun _ => rfl, fun _ => rfl, fun _ => rfl, fun _ => rfl, fun _ => rfl, fun _ => rfl, rfl, rfl⟩

end Unchanged

end Sys2Proof.Machine
end

section
/-! The ALU (spec 42_alu.md): copy and logic, the results and flags as numbers, one law for the instructions that write
a result and a flag, and RND. -/

namespace Sys2Proof.Machine

/-! ### LD Vx,Vy, OR, AND and XOR (R143–R146) -/

section
variable (x y : Reg) (s : State)

theorem exec_ldReg : exec (.ldReg x y) s = .next (s.setV x s.v[y]).advance := rfl

theorem exec_or : exec (.or x y) s = .next (s.setV x (s.v[x] ||| s.v[y])).advance := rfl

theorem exec_and : exec (.and x y) s = .next (s.setV x (s.v[x] &&& s.v[y])).advance := rfl

theorem exec_xor : exec (.xor x y) s = .next (s.setV x (s.v[x] ^^^ s.v[y])).advance := rfl

end

/-- Settles O32: each of the four stores one value in Vx and advances. -/
theorem copyAndLogic : Obligations.CopyAndLogic := fun x y s =>
  ⟨writes_of_exec_eq_setV_advance (exec_ldReg x y s), writes_of_exec_eq_setV_advance (exec_or x y s),
   writes_of_exec_eq_setV_advance (exec_and x y s), writes_of_exec_eq_setV_advance (exec_xor x y s)⟩

/-! ### Results and flags as numbers (R140) -/

theorem flagByte_decide (P : Prop) [Decidable P] : flagByte (decide P) = if P then 1 else 0 := by
  simp [flagByte]

/-- The difference is reduced into 0..255 before it is narrowed (R149, R151). -/
theorem subResult_toNat (a b : Byte) : ((subResult a b).toNat : Int) = ((a.toNat : Int) - b.toNat) % 256 := by
  have ha := a.isLt
  have hb := b.isLt
  rw [subResult, BitVec.toNat_ofNat]
  omega

theorem shrResult_toNat (a : Byte) : (shrResult a).toNat = a.toNat / 2 := by
  rw [shrResult, BitVec.toNat_ushiftRight, Nat.shiftRight_eq_div_pow]

theorem shrFlag_toNat (a : Byte) : (shrFlag a).toNat = a.toNat % 2 := by
  rw [shrFlag, BitVec.toNat_and]
  exact Nat.and_one_is_mod _

theorem shlResult_toNat (a : Byte) : (shlResult a).toNat = a.toNat * 2 % 256 := by
  rw [shlResult, BitVec.toNat_shiftLeft, Nat.shiftLeft_eq]

theorem shlFlag_toNat (a : Byte) : (shlFlag a).toNat = a.toNat / 128 := by
  have ha := a.isLt
  rw [shlFlag, BitVec.toNat_and, BitVec.toNat_ushiftRight, Nat.shiftRight_eq_div_pow]
  exact (Nat.and_one_is_mod _).trans (by omega)

/-! ### Results with a flag (R147–R152) -/

section
variable (x y : Reg) (s : State)

theorem exec_addReg : exec (.addReg x y) s =
    .next (s.setResultAndFlag x (addResult s.v[x] s.v[y]) (addFlag s.v[x] s.v[y])).advance := rfl

theorem exec_sub : exec (.sub x y) s =
    .next (s.setResultAndFlag x (subResult s.v[x] s.v[y]) (subFlag s.v[x] s.v[y])).advance := rfl

theorem exec_subn : exec (.subn x y) s =
    .next (s.setResultAndFlag x (subResult s.v[y] s.v[x]) (subFlag s.v[y] s.v[x])).advance := rfl

theorem exec_shr : exec (.shr x y) s =
    .next (s.setResultAndFlag x (shrResult s.v[x]) (shrFlag s.v[x])).advance := rfl

theorem exec_shl : exec (.shl x y) s =
    .next (s.setResultAndFlag x (shlResult s.v[x]) (shlFlag s.v[x])).advance := rfl

end

/-- An instruction that stores a result in Vx and then a flag in VF writes those two only, and the flag wins (R147). -/
theorem writes_of_exec_eq_setResultAndFlag_advance {i : Instr} {s : State} {x : Reg} {r f : Byte}
    (hexec : exec i s = .next (s.setResultAndFlag x r f).advance) :
    ∃ t, exec i s = .next t ∧ t.v[VF] = f ∧ (x ≠ VF → t.v[x] = r) ∧ t.pc = nextPc s ∧ Unchanged [] [x, VF] s t :=
  ⟨_, hexec, getV_setResultAndFlag_VF s x r f, fun hx => getV_setResultAndFlag_same s hx r f, rfl,
    .setResultAndFlag_advance s x r f []⟩

/-- Settles O33: the flag is the carry of the exact sum, and the result is the reduced sum. -/
theorem addSetsCarry : Obligations.AddSetsCarry := by
  intro x y s
  obtain ⟨t, hexec, hflag, hresult, hpc, hframe⟩ := writes_of_exec_eq_setResultAndFlag_advance (exec_addReg x y s)
  exact ⟨t, hexec, hflag.trans (flagByte_decide _), fun hx => hresult hx ▸ addResult_toNat _ _, hpc, hframe⟩

/-- An instruction that stores a − b in Vx reduces it mod 256 and leaves not-borrow in VF (R149, R151). -/
theorem subtracts_of_exec_eq {i : Instr} {s : State} {x : Reg} {a b : Byte}
    (hexec : exec i s = .next (s.setResultAndFlag x (subResult a b) (subFlag a b)).advance) :
    ∃ t, exec i s = .next t ∧ t.v[VF] = (if b.toNat ≤ a.toNat then 1 else 0) ∧
      (x ≠ VF → (t.v[x].toNat : Int) = ((a.toNat : Int) - b.toNat) % 256) ∧ t.pc = nextPc s ∧
      Unchanged [] [x, VF] s t := by
  obtain ⟨t, ht, hflag, hresult, hpc, hframe⟩ := writes_of_exec_eq_setResultAndFlag_advance hexec
  exact ⟨t, ht, hflag.trans (flagByte_decide _), fun hx => hresult hx ▸ subResult_toNat _ _, hpc, hframe⟩

/-- Settles O34: Vx minus Vy. -/
theorem subSetsNotBorrow : Obligations.SubSetsNotBorrow := fun x y s => subtracts_of_exec_eq (exec_sub x y s)

/-- Settles O35: Vy minus Vx. -/
theorem subnSetsNotBorrow : Obligations.SubnSetsNotBorrow := fun x y s => subtracts_of_exec_eq (exec_subn x y s)

/-- Settles O36: neither shift's outcome names y, and the flag is the bit its shift drops. -/
theorem shiftsSetShiftedOutBit : Obligations.ShiftsSetShiftedOutBit := by
  intro x y s
  constructor
  · obtain ⟨t, hexec, hflag, hresult, hpc, hframe⟩ := writes_of_exec_eq_setResultAndFlag_advance (exec_shr x y s)
    exact ⟨t, fun _ => rfl, hexec, hflag ▸ shrFlag_toNat _, fun hx => hresult hx ▸ shrResult_toNat _, hpc, hframe⟩
  · obtain ⟨t, hexec, hflag, hresult, hpc, hframe⟩ := writes_of_exec_eq_setResultAndFlag_advance (exec_shl x y s)
    exact ⟨t, fun _ => rfl, hexec, hflag ▸ shlFlag_toNat _, fun hx => hresult hx ▸ shlResult_toNat _, hpc, hframe⟩

/-! ### RND (R153) -/

theorem exec_rnd (x : Reg) (nn : Byte) (s : State) :
    exec (.rnd x nn) s = .next { s.setV x (Config.freeByte s.draws &&& nn) with draws := s.draws + 1 }.advance := rfl

/-- A draw counter is in no frame, so counting a draw after a register write stays in the register's frame. -/
theorem Unchanged.setV_draws_advance (s : State) (x : Reg) (b : Byte) (n : Nat) (parts : List Part) :
    Unchanged parts [x] s { s.setV x b with draws := n }.advance :=
  .of_registers parts rfl fun _ hr => getV_setV_other s (List.ne_of_not_mem_cons hr).symm b

/-- Settles O37: the masked byte has no bit outside its mask, whatever was drawn. -/
theorem rndMasksDrawnByte : Obligations.RndMasksDrawnByte := by
  intro x nn s
  have hv := getV_setV_same s x (Config.freeByte s.draws &&& nn)
  refine ⟨_, exec_rnd x nn s, hv, rfl, ?_, rfl, .setV_draws_advance s x _ _ []⟩
  refine (congrArg (· &&& ~~~nn) hv).trans ?_
  simp [BitVec.and_assoc]

end Sys2Proof.Machine
end

section
/-! The rest of control transfer (spec 41_control_flow.md): JP V0,addr, and CALL followed by RET. -/

namespace Sys2Proof.Machine

/-! ### JP V0,addr and CALL with RET (R28, R29, R123) -/

theorem exec_jpV0 (nnn : BitVec 12) (s : State) :
    exec (.jpV0 nnn) s = .next (s.setPc (nnn.toNat + s.v[(0 : Reg)].toNat)) := rfl

/-- Settles O29: pc takes the sum reduced mod 4096. -/
theorem jpV0AddsOffset : Obligations.JpV0AddsOffset := fun nnn s =>
  ⟨_, exec_jpV0 nnn s, toNat_ofNat_mod _, .setPc s _ [] []⟩

/-- A reduced value is an address in range (R14). -/
theorem ofNat_mod_lt (n : Nat) : (BitVec.ofNat 16 (n % 4096)).toNat < 4096 := by
  rw [toNat_ofNat_mod]
  exact Nat.mod_lt n (by decide)

theorem nextPc_lt (s : State) : (nextPc s).toNat < 4096 := ofNat_mod_lt _

/-- Settles O28: RET pops the entry that CALL pushed, which is next(pc) and so in range. -/
theorem callThenRetReturns : Obligations.CallThenRetReturns := by
  intro nnn s hlt
  obtain ⟨t, hcall, -, hsp, hpushed, hentries, hframe⟩ := (callPushesOrOverflows nnn s).1 hlt
  have hpos : 0 < t.sp.val := by omega
  have htop : t.stack[t.sp.val - 1]'(by omega) = nextPc s := by
    simp only [hsp, Nat.add_sub_cancel]
    exact hpushed
  obtain ⟨u, hret, hpc, hsp', hstack, hframe'⟩ := (retPopsOrUnderflows t).1 hpos (htop ▸ nextPc_lt s)
  refine ⟨t, u, hcall, hret, hpc.trans htop, Fin.ext (by omega), fun k hk => ?_, hframe.trans hframe'⟩
  rw [hstack]
  exact hentries k hk

end Sys2Proof.Machine
end

section
/-! The index register (spec 43_index_memory.md section 1): LD I, ADD I and LD F. -/

namespace Sys2Proof.Machine

theorem exec_ldI (nnn : BitVec 12) (s : State) : exec (.ldI nnn) s = .next (s.setI nnn.toNat).advance := rfl

theorem exec_addIVx (x : Reg) (s : State) :
    exec (.addIVx x) s = .next (s.setI (s.I.toNat + s.v[x].toNat)).advance := rfl

/-- An instruction that writes the index register and advances reduces the value mod 4096 (R14, R25). -/
theorem writes_of_exec_eq_setI_advance {i : Instr} {s : State} {a : Nat}
    (hexec : exec i s = .next (s.setI a).advance) :
    ∃ t, exec i s = .next t ∧ t.I.toNat = a % 4096 ∧ t.pc = nextPc s ∧ Unchanged [.index] [] s t :=
  ⟨_, hexec, toNat_ofNat_mod a, rfl, .setI_advance s a []⟩

/-- Settles O38: an address field is in range as it stands, and a sum is reduced. -/
theorem indexLoadAndAdd : Obligations.IndexLoadAndAdd := by
  intro nnn x s
  obtain ⟨t, hexec, hI, hpc, hframe⟩ := writes_of_exec_eq_setI_advance (exec_ldI nnn s)
  exact ⟨⟨t, hexec, hI.trans (Nat.mod_eq_of_lt nnn.isLt), hpc, hframe⟩,
    writes_of_exec_eq_setI_advance (exec_addIVx x s)⟩

/-! ### LD F,Vx (R172) -/

theorem exec_ldFVx (x : Reg) (s : State) : exec (.ldFVx x) s = execLdFVx x s := rfl

theorem exec_ldFVx_of_digit {x d : Reg} {s : State} (h : nibbleIndex s.v[x] = some d) :
    exec (.ldFVx x) s = .next (s.setI (glyphAddr d)).advance := by
  rw [exec_ldFVx, execLdFVx, h]

theorem exec_ldFVx_of_large {x : Reg} {s : State} (h : nibbleIndex s.v[x] = none) :
    exec (.ldFVx x) s = .next (s.takeFatal .operandRangeError none) := by
  rw [exec_ldFVx, execLdFVx, h]

theorem glyphAddr_eq (d : Reg) : glyphAddr d = 0x050 + d.val * 5 := rfl

/-- Settles O39: a digit's glyph lies in memory, so its address is not reduced; a larger value is no digit. -/
theorem glyphAddressOrRangeError : Obligations.GlyphAddressOrRangeError := by
  intro x s
  constructor
  · intro hle
    have hdigit : nibbleIndex s.v[x] = some ⟨s.v[x].toNat, by omega⟩ := nibbleIndex_eq_some_iff.mpr rfl
    obtain ⟨t, hexec, hI, hpc, hframe⟩ := writes_of_exec_eq_setI_advance (exec_ldFVx_of_digit hdigit)
    rw [glyphAddr_eq, Nat.mod_eq_of_lt (by omega)] at hI
    exact ⟨t, hexec, hI, hpc, hframe⟩
  · intro hlarge
    exact exec_ldFVx_of_large (nibbleIndex_eq_none_iff.mpr hlarge)

end Sys2Proof.Machine
end

section
/-! Keys (spec 45_timers_keys.md): SKP, SKNP, LD Vx,K and the wait turn. -/

namespace Sys2Proof.Machine

/-! ### SKP and SKNP (R225–R227) -/

theorem exec_skp (x : Reg) (s : State) : exec (.skp x) s = execSkp x s := rfl

theorem exec_sknp (x : Reg) (s : State) : exec (.sknp x) s = execSknp x s := rfl

section
variable {x k : Reg} {s : State}

theorem exec_skp_of_key (h : nibbleIndex s.v[x] = some k) : exec (.skp x) s = .next (s.skipIf s.key[k]) := by
  rw [exec_skp, execSkp, h]

theorem exec_skp_of_large (h : nibbleIndex s.v[x] = none) :
    exec (.skp x) s = .next (s.takeFatal .operandRangeError none) := by
  rw [exec_skp, execSkp, h]

theorem exec_sknp_of_key (h : nibbleIndex s.v[x] = some k) : exec (.sknp x) s = .next (s.skipIf (!s.key[k])) := by
  rw [exec_sknp, execSknp, h]

theorem exec_sknp_of_large (h : nibbleIndex s.v[x] = none) :
    exec (.sknp x) s = .next (s.takeFatal .operandRangeError none) := by
  rw [exec_sknp, execSknp, h]

end

/-- Settles O51: with a key's number in Vx both are conditional skips on that key; a larger number is no key. -/
theorem keySkipsOrRangeError : Obligations.KeySkipsOrRangeError := by
  intro x s
  constructor
  · intro k hk
    have hkey : nibbleIndex s.v[x] = some k := nibbleIndex_eq_some_iff.mpr hk
    exact ⟨skips_of_exec_eq_skipIf (exec_skp_of_key hkey) Iff.rfl,
      skips_of_exec_eq_skipIf (exec_sknp_of_key hkey) (.of_eq (Bool.not_eq_true' _))⟩
  · intro hlarge
    have hnone := nibbleIndex_eq_none_iff.mpr hlarge
    exact ⟨exec_skp_of_large hnone, exec_sknp_of_large hnone⟩

/-! ### LD Vx,K and the wait turn (R230, R231) -/

/-- Settles O52: the one field it writes. -/
theorem keyWaitParks : Obligations.KeyWaitParks := fun _ _ => rfl

theorem State.waitTurn_of_no_key {s : State} (h : pressedKeys s = []) (x : Reg) : s.waitTurn x = s := by
  rw [State.waitTurn, h]

/-- With a key pressed, the wait turn stores a pressed key. -/
theorem State.waitTurn_of_key {s : State} (h : pressedKeys s ≠ []) (x : Reg) : ∃ k : Reg, s.key[k] = true ∧
    s.waitTurn x = { s.setV x (BitVec.ofNat 8 k.val) with wait := none, draws := s.draws + 1 }.advance := by
  obtain ⟨k, ks, hks⟩ := List.exists_cons_of_ne_nil h
  refine ⟨drawKey s.draws k ks, mem_pressedKeys.mp (hks ▸ drawKey_mem s.draws k ks), ?_⟩
  rw [State.waitTurn, hks]

theorem step_waiting {s : State} {x : Reg} (hh : s.halted = none) (hw : s.wait = some x) :
    step s = .next (s.waitTurn x) := by
  simp [step, engineStep, hh, hw]

theorem stepReport_waiting {s : State} {x : Reg} (hh : s.halted = none) (hw : s.wait = some x) :
    stepReport s = some (if pressedKeys s = [] then .waiting else .resumed) := by
  simp [stepReport, hh, hw]

theorem pressedKeys_ne_nil_iff {s : State} : pressedKeys s ≠ [] ↔ ∃ k : Reg, s.key[k] = true := by
  simp [pressedKeys_eq_nil_iff]

/-- Settles O10: the set of pressed keys is empty, or the drawn key is one of them. -/
theorem waitTurnStoresPressedKey : Obligations.WaitTurnStoresPressedKey := by
  intro s x hh hw
  constructor
  · intro hnone
    have hnil := pressedKeys_eq_nil_iff.mpr hnone
    rw [step_waiting hh hw, stepReport_waiting hh hw, State.waitTurn_of_no_key hnil, if_pos hnil]
    exact ⟨rfl, rfl⟩
  · intro hsome
    have hne := pressedKeys_ne_nil_iff.mpr hsome
    obtain ⟨k, hk, hturn⟩ := State.waitTurn_of_key hne x
    rw [step_waiting hh hw, stepReport_waiting hh hw, if_neg hne, hturn]
    exact ⟨_, k, rfl, rfl, hk, getV_setV_same s x _, rfl, rfl,
      .of_wait rfl fun _ hr => getV_setV_other s (List.ne_of_not_mem_cons hr).symm _⟩

end Sys2Proof.Machine
end

section
/-! Block transfers at I (spec 43_index_memory.md section 2): one law for the stores that fit in memory, one for those
that reach past it, and the two cases of the load. -/

namespace Sys2Proof.Machine

theorem exec_ldBVx (x : Reg) (s : State) : exec (.ldBVx x) s = .next (s.storeBlock (bcdDigits s.v[x])) := rfl

theorem exec_storeRegs (x : Reg) (s : State) : exec (.storeRegs x) s = .next (s.storeBlock (registerBlock s x)) := rfl

theorem exec_loadRegs (x : Reg) (s : State) : exec (.loadRegs x) s = .next (s.loadBlock (x.val + 1)) := rfl

/-! ### What is stored (R175, R176) -/

/-- The digit at place k of three, the hundreds first. -/
theorem bcdDigits_getElem_toNat (b : Byte) {k : Nat} (h : k < 3) :
    ((bcdDigits b)[k]'h).toNat = b.toNat / 10 ^ (2 - k) % 10 := by
  have hb := b.isLt
  match k, h with
  | 0, _ => exact (BitVec.toNat_ofNat _ _).trans (by omega)
  | 1, _ => exact (BitVec.toNat_ofNat _ _).trans (by omega)
  | 2, _ => exact (BitVec.toNat_ofNat _ _).trans (by omega)

theorem registerBlock_getElem_reg (s : State) {x r : Reg} (h : r.val < (registerBlock s x).length) :
    (registerBlock s x)[r.val] = s.v[r] := registerBlock_getElem s x h

/-! ### Stores (R173, R174, R258) -/

section
variable {s : State} {bytes : List Byte}

/-- A store that fits writes its bytes from I on, keeps every other byte, and advances. -/
theorem State.storeBlock_stores (hm : Memory.wf s.mem = true) (hfits : s.I.toNat + bytes.length ≤ 4096) :
    (∀ k, (hk : k < bytes.length) → (s.storeBlock bytes).readByte (s.I.toNat + k) = bytes[k]) ∧
    (∀ a, a < s.I.toNat ∨ s.I.toNat + bytes.length ≤ a → (s.storeBlock bytes).readByte a = s.readByte a) ∧
    (s.storeBlock bytes).pc = nextPc s ∧ Unchanged [.memory] [] s (s.storeBlock bytes) := by
  rw [s.storeBlock_ok bytes (.inr hfits)]
  exact ⟨fun _ => Memory.read_storeBytes_inside hm bytes hfits, fun _ => Memory.read_storeBytes_outside s.mem bytes,
    rfl, .setMem_advance s _ []⟩

/-- A store that does not fit halts at 0x1000, and each byte it reaches is old or new. -/
theorem State.storeBlock_faults (hm : Memory.wf s.mem = true) (hI : s.I.toNat < 4096)
    (hpast : 4096 < s.I.toNat + bytes.length) :
    (s.storeBlock bytes).halted = some ⟨.boundsError, s.pc, some 0x1000⟩ ∧ (s.storeBlock bytes).pc = s.pc ∧
    Unchanged [.memory, .halted] [] s (s.storeBlock bytes) ∧
    (∀ a, a < s.I.toNat → (s.storeBlock bytes).readByte a = s.readByte a) ∧
    (∀ k, (hk : k < bytes.length) → s.I.toNat + k < 4096 →
      (s.storeBlock bytes).readByte (s.I.toNat + k) = s.readByte (s.I.toNat + k) ∨
      (s.storeBlock bytes).readByte (s.I.toNat + k) = bytes[k]) := by
  rw [s.storeBlock_fault bytes hI hpast]
  have hlen : (bytes.take (4096 - s.I.toNat)).length = 4096 - s.I.toNat := List.length_take_of_le (by omega)
  refine ⟨rfl, rfl, .of_memory rfl, fun a ha => Memory.read_storeOldOrNew_outside _ _ (.inl ha), fun k hk hin => ?_⟩
  have hstored := Memory.read_storeOldOrNew_inside hm (bytes.take (4096 - s.I.toNat)) (d := s.draws)
    (base := s.I.toNat) (k := k) (by omega) (by omega)
  rwa [List.getElem_take] at hstored

end

/-- Settles O40: a store of three bytes that fits, the digits read off one by one. -/
theorem bcdStoresDigits : Obligations.BcdStoresDigits := by
  intro x s hm hI
  obtain ⟨hinside, houtside, hpc, hframe⟩ := State.storeBlock_stores (bytes := bcdDigits s.v[x]) hm hI
  have hdigit (k : Nat) (hk : k < 3) : ((s.storeBlock (bcdDigits s.v[x])).readByte (s.I.toNat + k)).toNat =
      s.v[x].toNat / 10 ^ (2 - k) % 10 := (congrArg _ (hinside k hk)).trans (bcdDigits_getElem_toNat _ hk)
  have hv := s.v[x].isLt
  refine ⟨_, exec_ldBVx x s, ?_, (hdigit 1 (by decide)).trans (by omega), (hdigit 2 (by decide)).trans (by omega),
    houtside, hpc, hframe⟩
  exact (hdigit 0 (by decide)).trans (by omega)

/-- Settles O41: a store of x + 1 registers that fits. -/
theorem registersStored : Obligations.RegistersStored := by
  intro x s hm hI
  have hlen := registerBlock_length s x
  obtain ⟨hinside, houtside, hpc, hframe⟩ :=
    State.storeBlock_stores (bytes := registerBlock s x) hm (by omega)
  refine ⟨_, exec_storeRegs x s, fun r hr => ?_, fun a ha => houtside a (by omega), hpc, hframe⟩
  have hr' : r.val < (registerBlock s x).length := hlen ▸ Nat.lt_succ_of_le hr
  exact (hinside r.val hr').trans (registerBlock_getElem_reg s hr')

/-- Settles O43: both stores are block stores that do not fit. -/
theorem storeFaultsPastMemory : Obligations.StoreFaultsPastMemory := by
  intro x s hm hI
  constructor
  · intro hpast
    obtain ⟨hhalted, hpc, hframe, hbelow, hreached⟩ :=
      State.storeBlock_faults (bytes := bcdDigits s.v[x]) hm hI (Nat.lt_succ_of_le hpast)
    refine ⟨_, exec_ldBVx x s, hhalted, hpc, hframe, hbelow, fun k hk hin => (hreached k hk hin).imp_right ?_⟩
    intro hnew
    exact (congrArg _ hnew).trans (bcdDigits_getElem_toNat _ hk)
  · intro hpast
    have hlen := registerBlock_length s x
    obtain ⟨hhalted, hpc, hframe, hbelow, hreached⟩ :=
      State.storeBlock_faults (bytes := registerBlock s x) hm hI (by omega)
    refine ⟨_, exec_storeRegs x s, hhalted, hpc, hframe, hbelow, fun r hin => ?_⟩
    have hr : r.val < (registerBlock s x).length := by omega
    exact (hreached r.val hr hin).imp_right (·.trans (registerBlock_getElem_reg s hr))

/-- Settles O59: the store leaves V0 and V1 in the two bytes at I, where pc then stands. -/
theorem storeSeenByNextFetch : Obligations.StoreSeenByNextFetch := by
  intro x s hm hx hI hpcI
  obtain ⟨t, hexec, hstored, -, hpc, -⟩ := registersStored x s hm hI
  refine ⟨t, hexec, ?_⟩
  rw [t.fetch_ok (by rw [hpc]; omega), hpc, hpcI]
  exact congrArg Except.ok (congrArg₂ (· ++ ·) (hstored 0 (Fin.zero_le _)) (hstored 1 hx))

/-! ### Loads (R177) -/

/-- Settles O42: with every byte in memory each register takes its byte or stays. -/
theorem registersLoaded : Obligations.RegistersLoaded := by
  intro x s hI
  have hload := exec_loadRegs x s
  rw [s.loadBlock_ok _ (.inr (by omega))] at hload
  refine ⟨_, hload, fun r hr => ?_, fun r hr => ?_, rfl, .of_registers [] rfl fun r hr => ?_⟩
  all_goals simp only [State.advance_v, Fin.getElem_fin, Vector.getElem_ofFn]
  · exact if_pos (Nat.lt_succ_of_le hr)
  · exact if_neg (Nat.not_lt.mpr hr)
  · refine if_neg fun hlt => hr ?_
    simpa using Nat.le_of_lt_succ hlt

/-- Settles O44: the registers whose bytes lie below 0x1000 are old or loaded, and the others stay. -/
theorem loadFaultsPastMemory : Obligations.LoadFaultsPastMemory := by
  intro x s hI hpast
  have hload := exec_loadRegs x s
  rw [s.loadBlock_fault _ hI (by omega)] at hload
  refine ⟨_, hload, rfl, rfl, .of_fatal_registers rfl fun r hr => ?_, fun r hr => ?_⟩
  all_goals simp only [State.takeFatal_v, Fin.getElem_fin, Vector.getElem_ofFn]
  · refine if_neg fun hlt => hr ?_
    simp only [List.mem_filter, List.mem_finRange, true_and, decide_eq_true_eq]
    omega
  · rw [if_pos (by omega)]
    exact oldOrNew_cases _ _ _

end Sys2Proof.Machine
end

section
/-! DRW (spec 44_display.md section 3) with no rows, drawn twice, and past the end of memory. -/

namespace Sys2Proof.Machine

/-! ### No rows (R200) -/

/-- Settles O47: of a sprite with no rows only step 2 and the advance are left. -/
theorem drwZeroRowsClearsVF : Obligations.DrwZeroRowsClearsVF := fun x y s =>
  exec_drw_ok (x := x) (y := y) (n := 0) (s := s) fun r hr => absurd hr (Nat.not_lt_zero r)

/-! ### Drawn twice (R202) -/

theorem Grid.ext {g g' : Grid} (h : ∀ (c : Fin 64) (r : Fin 32), g[c][r] = g'[c][r]) : g = g' :=
  Vector.ext fun c hc => Vector.ext fun r hr => h ⟨c, hc⟩ ⟨r, hr⟩

/-- A sprite covers what its bytes and I say, so a frame that keeps both keeps it. -/
theorem Unchanged.spriteCovers_eq {regs : List Reg} {s t : State} (h : Unchanged [.screen, .redraw] regs s t)
    (x0 y0 n : Nat) : t.spriteCovers x0 y0 n = s.spriteCovers x0 y0 n := by
  funext c r
  rw [State.spriteCovers, State.spriteCovers, h.index (by decide), h.memory (by decide)]

/-- Settles O48: the second draw covers the pixels of the first, flips them back, and collides where the first left one
on. -/
theorem drwTwiceRestoresScreen : Obligations.DrwTwiceRestoresScreen := by
  intro x y n s hx hy hmem
  obtain ⟨t, hexec, hfb, -, -, -, -, hframe⟩ := drwFlipsSpritePixels x y n s hmem
  have hvx : t.v[x] = s.v[x] := hframe.registers x (by simpa using hx)
  have hvy : t.v[y] = s.v[y] := hframe.registers y (by simpa using hy)
  have hmem' : t.spriteInMemory (t.v[y].toNat % 32) n.toNat := by
    rw [hvy]
    intro r hr hrow
    rw [hframe.index (by decide)]
    exact hmem r hr hrow
  obtain ⟨u, hexec', hfb', hhit, hmiss, -, -, -⟩ := drwFlipsSpritePixels x y n t hmem'
  simp only [hvx, hvy, hframe.spriteCovers_eq] at hfb' hhit hmiss
  refine ⟨t, u, hexec, hexec', Grid.ext fun c r => ?_, hhit, fun hone => ?_⟩
  · rw [hfb', hfb, Bool.xor_assoc, Bool.xor_self, Bool.xor_false]
  · by_contra hnone
    have hzero : u.v[VF] = 0 := hmiss fun c r hon => by
      by_contra hcovered
      exact hnone ⟨c, r, hon, by simpa using hcovered⟩
    rw [hzero] at hone
    exact absurd hone (by decide)

/-! ### Past the end of memory (R196, R258) -/

/-- With a drawn row outside memory, the rows below 0x1000 are drawn and the draw then faults there. -/
theorem exec_drw_fault {x y : Reg} {n : BitVec 4} {s : State} (hI : s.I.toNat < 4096)
    (h : ¬ s.spriteInMemory (anchorY s.v[y]) n.toNat) :
    exec (.drw x y n) s = .next (s.drawFault
      ((s.setV VF 0).drawRows (anchorX s.v[x]) (anchorY s.v[y]) (4096 - s.I.toNat)) 4096) := by
  rw [exec_drw, execDrw]
  cases hr : firstOutOfRange s.I.toNat (rowsDrawn (anchorY s.v[y]) n.toNat) with
  | none => exact absurd ((firstOutOfRange_rows s (anchorY_lt _)).mp hr) h
  | some r =>
    have hend := firstOutOfRange_addr hr hI
    obtain rfl : r = 4096 - s.I.toNat := by omega
    simp only [hend]

section
variable (old new : State) (addr : Nat)

theorem State.drawFault_fb (c : Fin 64) (r : Fin 32) :
    (old.drawFault new addr).fb[c][r] = oldOrNew (old.draws + 32 * c.val + r.val) old.fb[c][r] new.fb[c][r] := by
  simp [State.drawFault]

theorem State.drawFault_v : (old.drawFault new addr).v = old.v.set VF
    (oldOrNew (old.draws + 2048) (oldOrNew (old.draws + 2049) old.v[VF] 0) new.v[VF]) := rfl

theorem State.drawFault_VF : (old.drawFault new addr).v[VF] =
    oldOrNew (old.draws + 2048) (oldOrNew (old.draws + 2049) old.v[VF] 0) new.v[VF] := by
  rw [State.drawFault_v]
  exact Vector.getElem_set_self _

theorem State.drawFault_getV_other {r : Reg} (h : VF ≠ r) : (old.drawFault new addr).v[r] = old.v[r] := by
  rw [State.drawFault_v]
  exact Vector.getElem_set_ne _ _ fun heq => h (Fin.ext heq)

theorem State.drawFault_redraw :
    (old.drawFault new addr).redraw = oldOrNew (old.draws + 2050) old.redraw new.redraw := rfl

theorem Unchanged.drawFault : Unchanged [.screen, .redraw, .halted] [VF] old (old.drawFault new addr) :=
  ⟨fun _ hr => State.drawFault_getV_other old new addr (List.ne_of_not_mem_cons hr).symm, fun _ => rfl, fun _ _ => rfl,
    fun _ => ⟨rfl, rfl⟩, fun _ => rfl, fun _ => rfl, fun h => absurd (by simp) h, fun h => absurd (by simp) h,
    fun _ => rfl, fun h => absurd (by simp) h, fun _ => rfl, rfl, rfl⟩

end

/-- Redraw after a draw is what it was, or set by a covered pixel. -/
theorem Drawn.redraw_cases {P : Fin 64 → Fin 32 → Bool} {s t : State} (h : Drawn P s t) :
    t.redraw = s.redraw ∨ (t.redraw = true ∧ ∃ (c : Fin 64) (r : Fin 32), P c r = true) := by
  by_cases ht : t.redraw = true
  · exact (h.redraw.mp ht).imp (ht.trans ·.symm) (⟨ht, ·⟩)
  · have hs : ¬ s.redraw = true := fun hs => ht (h.redraw.mpr (.inl hs))
    exact .inl ((Bool.eq_false_of_not_eq_true ht).trans (Bool.eq_false_of_not_eq_true hs).symm)

/-- Settles O49: each location is the old one or what the rows below 0x1000 left there, and those rows flip the sprite's
pixels only. -/
theorem drwFaultsPastMemory : Obligations.DrwFaultsPastMemory := by
  intro x y n s hI hpast
  have hdrawn := s.drawRows_setV_drawn VF 0 (anchorX s.v[x]) (anchorY s.v[y]) (4096 - s.I.toNat)
  refine ⟨_, exec_drw_fault hI hpast, rfl, rfl, fun c r huncovered => ?_, ?_, ?_, .drawFault s _ 4096⟩
  · have hsame := hdrawn.fb c r
    rw [show s.spriteCovers (anchorX s.v[x]) (anchorY s.v[y]) (4096 - s.I.toNat) c r = false from huncovered,
      Bool.xor_false] at hsame
    rw [State.drawFault_fb, hsame]
    exact oldOrNew_self _ _
  · rw [State.drawFault_VF]
    obtain hold | hnew := oldOrNew_cases (s.draws + 2048) (oldOrNew (s.draws + 2049) s.v[VF] 0) _
    · rw [hold]
      exact (oldOrNew_cases _ _ _).imp_right .inl
    · rw [hnew]
      exact .inr (hdrawn.vf_cases.imp_left (·.trans (getV_setV_same s VF 0)))
  · rw [State.drawFault_redraw]
    obtain hold | hnew := oldOrNew_cases (s.draws + 2050) s.redraw _
    · exact .inl hold
    · rw [hnew]
      exact hdrawn.redraw_cases

end Sys2Proof.Machine
end

section
/-! Every instruction (spec 10_state.md section 10): it answers a next state, and what it may change. -/

namespace Sys2Proof.Machine

/-! ### The outcomes of DRW and of the instructions that test a nibble -/

/-- DRW draws all its rows and advances, or draws some and faults. -/
theorem exec_drw_cases (x y : Reg) (n : BitVec 4) (s : State) :
    exec (.drw x y n) s = .next ((s.setV VF 0).drawRows (anchorX s.v[x]) (anchorY s.v[y]) n.toNat).advance ∨
    ∃ r, firstOutOfRange s.I.toNat (rowsDrawn (anchorY s.v[y]) n.toNat) = some r ∧ exec (.drw x y n) s =
      .next (s.drawFault ((s.setV VF 0).drawRows (anchorX s.v[x]) (anchorY s.v[y]) r) (s.I.toNat + r)) := by
  rw [exec_drw, execDrw]
  cases hr : firstOutOfRange s.I.toNat (rowsDrawn (anchorY s.v[y]) n.toNat) with
  | none => exact .inl rfl
  | some r => exact .inr ⟨r, rfl, rfl⟩

theorem exec_ldFVx_cases (x : Reg) (s : State) :
    (∃ d, exec (.ldFVx x) s = .next (s.setI (glyphAddr d)).advance) ∨
    exec (.ldFVx x) s = .next (s.takeFatal .operandRangeError none) := by
  cases h : nibbleIndex s.v[x] with
  | none => exact .inr (exec_ldFVx_of_large h)
  | some d => exact .inl ⟨d, exec_ldFVx_of_digit h⟩

theorem exec_skp_cases (x : Reg) (s : State) :
    (∃ c, exec (.skp x) s = .next (s.skipIf c)) ∨ exec (.skp x) s = .next (s.takeFatal .operandRangeError none) := by
  cases h : nibbleIndex s.v[x] with
  | none => exact .inr (exec_skp_of_large h)
  | some k => exact .inl ⟨_, exec_skp_of_key h⟩

theorem exec_sknp_cases (x : Reg) (s : State) :
    (∃ c, exec (.sknp x) s = .next (s.skipIf c)) ∨ exec (.sknp x) s = .next (s.takeFatal .operandRangeError none) := by
  cases h : nibbleIndex s.v[x] with
  | none => exact .inr (exec_sknp_of_large h)
  | some k => exact .inl ⟨_, exec_sknp_of_key h⟩

/-! ### Completion -/

/-- Settles O12: every arm of `exec` is a next state, in both cases of those that can fault. -/
theorem execAnswersNextState : Obligations.ExecAnswersNextState := by
  intro i s
  cases i with
  | ret =>
    obtain h0 | hpos := Nat.eq_zero_or_pos s.sp.val
    · exact ⟨_, exec_ret_empty s h0⟩
    · exact ⟨_, exec_ret_of_pos s hpos⟩
  | call nnn =>
    obtain hlt | hge := Nat.lt_or_ge s.sp.val 16
    · exact ⟨_, exec_call_of_lt nnn s hlt⟩
    · exact ⟨_, exec_call_full nnn s (by omega)⟩
  | drw x y n => obtain h | ⟨_, -, h⟩ := exec_drw_cases x y n s <;> exact ⟨_, h⟩
  | ldFVx x => obtain ⟨_, h⟩ | h := exec_ldFVx_cases x s <;> exact ⟨_, h⟩
  | skp x => obtain ⟨_, h⟩ | h := exec_skp_cases x s <;> exact ⟨_, h⟩
  | sknp x => obtain ⟨_, h⟩ | h := exec_sknp_cases x s <;> exact ⟨_, h⟩
  | _ => exact ⟨_, rfl⟩

/-! ### The frames of the instructions that can fault -/

section
variable {s t : State}

theorem execRet_frame (h : exec .ret s = .next t) : Unchanged [.stack, .halted] [] s t := by
  obtain h0 | hpos := Nat.eq_zero_or_pos s.sp.val
  · obtain rfl := Host.Outcome.next.inj ((exec_ret_empty s h0).symm.trans h)
    exact .takeFatal s _ _ [] (by decide)
  · obtain rfl := Host.Outcome.next.inj ((exec_ret_of_pos s hpos).symm.trans h)
    exact (Unchanged.of_stack [] rfl).mono (by decide) (by decide)

theorem execCall_frame {nnn : BitVec 12} (h : exec (.call nnn) s = .next t) :
    Unchanged [.stack, .halted] [] s t := by
  obtain hlt | hge := Nat.lt_or_ge s.sp.val 16
  · obtain rfl := Host.Outcome.next.inj ((exec_call_of_lt nnn s hlt).symm.trans h)
    exact (Unchanged.of_stack [] rfl).mono (by decide) (by decide)
  · obtain rfl := Host.Outcome.next.inj ((exec_call_full nnn s (by omega)).symm.trans h)
    exact .takeFatal s _ _ [] (by decide)

theorem execDrw_frame {x y : Reg} {n : BitVec 4} (h : exec (.drw x y n) s = .next t) :
    Unchanged [.screen, .redraw, .halted] [VF] s t := by
  obtain hok | ⟨r, -, hfault⟩ := exec_drw_cases x y n s
  · obtain rfl := Host.Outcome.next.inj (hok.symm.trans h)
    exact (s.drawRows_setV_drawn VF 0 _ _ _).unchanged_advance.mono (by decide) (by decide)
  · obtain rfl := Host.Outcome.next.inj (hfault.symm.trans h)
    exact .drawFault s _ _

theorem execLdFVx_frame {x : Reg} (h : exec (.ldFVx x) s = .next t) : Unchanged [.index, .halted] [] s t := by
  obtain ⟨d, hok⟩ | hfault := exec_ldFVx_cases x s
  · obtain rfl := Host.Outcome.next.inj (hok.symm.trans h)
    exact (Unchanged.setI_advance s _ []).mono (by decide) (by decide)
  · obtain rfl := Host.Outcome.next.inj (hfault.symm.trans h)
    exact .takeFatal s _ _ [] (by decide)

/-- A key skip that ran or faulted. -/
theorem Unchanged.of_skipIf_or_fatal {o : Host.Outcome State Fault Refusal}
    (ho : (∃ c, o = .next (s.skipIf c)) ∨ o = .next (s.takeFatal .operandRangeError none)) (h : o = .next t) :
    Unchanged [.halted] [] s t := by
  obtain ⟨c, hok⟩ | hfault := ho
  · obtain rfl := Host.Outcome.next.inj (hok.symm.trans h)
    exact .skipIf s c _ _
  · obtain rfl := Host.Outcome.next.inj (hfault.symm.trans h)
    exact .takeFatal s _ _ [] (by decide)

end

theorem Unchanged.storeBlock (s : State) (bytes : List Byte) :
    Unchanged [.memory, .halted] [] s (s.storeBlock bytes) := by
  unfold State.storeBlock
  split <;> exact .of_memory rfl

theorem Unchanged.loadBlock (s : State) (n : Nat) :
    Unchanged [.halted] ((List.finRange 16).filter fun r => decide (r.val < n)) s (s.loadBlock n) := by
  have hout {r : Reg} {k : Nat} (hkn : k ≤ n) (hr : r ∉ (List.finRange 16).filter fun r => decide (r.val < n)) :
      ¬ r.val < k := by
    simp only [List.mem_filter, List.mem_finRange, true_and, decide_eq_true_eq] at hr
    omega
  unfold State.loadBlock
  split
  · refine .of_registers _ rfl fun r hr => ?_
    simp only [State.advance_v, Fin.getElem_fin, Vector.getElem_ofFn]
    exact if_neg (hout (Nat.le_refl n) hr)
  · rename_i k hk
    refine .of_fatal_registers rfl fun r hr => ?_
    simp only [State.takeFatal_v, Fin.getElem_fin, Vector.getElem_ofFn]
    exact if_neg (hout (Nat.le_of_lt (firstOutOfRange_some hk).1) hr)

/-- A block store, run or faulted, leaves every byte outside its block alone. -/
theorem State.readByte_storeBlock_outside (s : State) (bytes : List Byte) {a : Nat}
    (h : a < s.I.toNat ∨ s.I.toNat + bytes.length ≤ a) : (s.storeBlock bytes).readByte a = s.readByte a := by
  unfold State.storeBlock
  split
  · exact Memory.read_storeBytes_outside s.mem bytes h
  · rename_i k _
    have htake : (bytes.take k).length ≤ bytes.length := List.length_take_le' k bytes
    exact Memory.read_storeOldOrNew_outside s.mem _ (by omega)

/-! ### The frame of every instruction -/

theorem exec_frame {i : Instr} {s t : State} (h : exec i s = .next t) : Unchanged i.mayChange i.mayWrite s t := by
  cases i with
  | cls =>
    cases h
    exact .of_screen rfl fun _ _ => rfl
  | ret => exact execRet_frame h
  | call => exact execCall_frame h
  | drw => exact execDrw_frame h
  | ldFVx => exact execLdFVx_frame h
  | skp x => exact .of_skipIf_or_fatal (exec_skp_cases x s) h
  | sknp x => exact .of_skipIf_or_fatal (exec_sknp_cases x s) h
  | jp | jpV0 =>
    cases h
    exact .setPc s _ _ _
  | seByte | sneByte | seReg | sneReg =>
    cases h
    exact .skipIf s _ _ _
  | ldByte | addByte | ldReg | or | and | xor | ldVxDT =>
    cases h
    exact .setV_advance s _ _ _
  | rnd =>
    cases h
    exact .setV_draws_advance s _ _ _ _
  | addReg | sub | shr | subn | shl =>
    cases h
    exact .setResultAndFlag_advance s _ _ _ _
  | ldI | addIVx =>
    cases h
    exact .setI_advance s _ _
  | ldVxK =>
    cases h
    exact .of_wait rfl fun _ _ => rfl
  | ldDTVx =>
    cases h
    exact .setDt_advance s _ _
  | ldSTVx =>
    cases h
    exact .setSt_advance s _ _
  | ldBVx | storeRegs =>
    cases h
    exact .storeBlock s _
  | loadRegs x =>
    cases h
    refine (Unchanged.loadBlock s (x.val + 1)).mono (List.Subset.refl _) fun r hr => ?_
    simpa [Instr.mayWrite, Nat.lt_succ_iff] using hr

/-- Settles O53: the frame of each arm. -/
theorem everyInstructionFrame : Obligations.EveryInstructionFrame := fun _ _ _ => exec_frame

/-- Settles O54: by the frame VF is a register the instruction may write, as its flag or as its destination. -/
theorem onlyFlagInstructionsWriteVF : Obligations.OnlyFlagInstructionsWriteVF := by
  intro i s t h hne
  have hmem : VF ∈ i.mayWrite := by
    by_contra hout
    exact hne ((exec_frame h).registers VF hout)
  cases i with
  | addReg | sub | shr | subn | shl | drw => simp
  | ldByte | addByte | ldReg | or | and | xor | rnd | ldVxDT =>
    obtain rfl := List.mem_singleton.mp hmem
    simp
  | loadRegs x =>
    have hle : VF ≤ x := by simpa [Instr.mayWrite] using hmem
    obtain rfl : x = VF := Fin.le_antisymm (Fin.le_last x) hle
    simp
  | _ => exact absurd hmem List.not_mem_nil

/-- Settles O55: by the frame I changes only where the instruction names it, and each of the three reduces what it
writes. -/
theorem onlyIndexInstructionsWriteI : Obligations.OnlyIndexInstructionsWriteI := by
  intro i s t h
  have hcases : t.I = s.I ∨ Part.index ∈ i.mayChange := by
    by_cases hmem : Part.index ∈ i.mayChange
    · exact .inr hmem
    · exact .inl ((exec_frame h).index hmem)
  obtain hI | hmem := hcases
  · exact ⟨fun hne => absurd hI hne, fun hlt => hI ▸ hlt⟩
  · cases i with
    | ldI nnn =>
      cases h
      exact ⟨fun _ => .inl ⟨nnn, rfl⟩, fun _ => ofNat_mod_lt _⟩
    | addIVx x =>
      cases h
      exact ⟨fun _ => .inr (.inl ⟨x, rfl⟩), fun _ => ofNat_mod_lt _⟩
    | ldFVx x =>
      refine ⟨fun _ => .inr (.inr ⟨x, rfl⟩), fun hlt => ?_⟩
      obtain ⟨d, hok⟩ | hfault := exec_ldFVx_cases x s
      · obtain rfl := Host.Outcome.next.inj (hok.symm.trans h)
        exact ofNat_mod_lt _
      · obtain rfl := Host.Outcome.next.inj (hfault.symm.trans h)
        exact hlt
    | _ => simp [Instr.mayChange] at hmem

/-- Settles O56: by the frame only the two block stores change memory, and they reach no other byte. -/
theorem onlyStoresChangeMemory : Obligations.OnlyStoresChangeMemory := by
  intro i s t h a ha
  cases i with
  | ldBVx x =>
    cases h
    exact State.readByte_storeBlock_outside s (bcdDigits s.v[x]) ha
  | storeRegs x =>
    cases h
    exact State.readByte_storeBlock_outside s (registerBlock s x) (by rwa [registerBlock_length])
  | _ => exact (exec_frame h).memory (by simp [Instr.mayChange]) a

end Sys2Proof.Machine
end

section
/-! The step engine (spec 40_step_engine.md): each kind of step with its report, what a step appends to diag, and the
self-jump. -/

namespace Sys2Proof.Machine

/-! ### The kinds of step and their reports (R100, R108) -/

section
variable {s : State}

theorem step_halted {f : FaultRecord} (h : s.halted = some f) : step s = .next s := by
  simp [step, engineStep, h]

theorem stepReport_halted {f : FaultRecord} (h : s.halted = some f) : stepReport s = some .halted := by
  simp [stepReport, h]

variable (hh : s.halted = none) (hw : s.wait = none)
include hh hw

theorem step_fetch_error {a : Nat} (hf : s.fetch = .error a) :
    step s = .next (s.leaveBoot.takeFatal .boundsError (some a)) := by
  rw [step_run hh hw, State.fetchDecodeExecute, show s.leaveBoot.fetch = .error a from hf]

theorem stepReport_fetch_error {a : Nat} (hf : s.fetch = .error a) : stepReport s = some (.fatal .boundsError) := by
  simp only [stepReport, hh, hw, show s.leaveBoot.fetch = .error a from hf]

variable {w : Word} (hf : s.fetch = .ok w)
include hf

theorem step_unknown (hd : decode w = none) : step s = .next (s.leaveBoot.reportUnknown w) := by
  simp only [step_run hh hw, State.fetchDecodeExecute, show s.leaveBoot.fetch = .ok w from hf, hd]

theorem stepReport_unknown (hd : decode w = none) : stepReport s = some .reported := by
  simp only [stepReport, hh, hw, show s.leaveBoot.fetch = .ok w from hf, hd]

variable {i : Instr} (hd : decode w = some i)
include hd

theorem step_exec : step s = exec i s.leaveBoot := by
  simp only [step_run hh hw, State.fetchDecodeExecute, show s.leaveBoot.fetch = .ok w from hf, hd]

theorem stepReport_exec : stepReport s = outcomeReport (exec i s.leaveBoot) := by
  simp only [stepReport, hh, hw, show s.leaveBoot.fetch = .ok w from hf, hd]

end

/-- Settles O6: the fetched word is the two bytes at pc. -/
theorem stepRunsDecodedInstruction : Obligations.StepRunsDecodedInstruction := fun s _ hh hw hpc hd =>
  step_exec hh hw (s.fetch_ok hpc) hd

/-- Settles O7: the report of the fetched word. -/
theorem stepReportsUnknownWord : Obligations.StepReportsUnknownWord := fun _ _ hh hw hf hd =>
  ⟨step_unknown hh hw hf hd, stepReport_unknown hh hw hf hd⟩

/-- Settles O8: the fetch fails with the address past pc. -/
theorem stepFetchOutOfRange : Obligations.StepFetchOutOfRange := fun s hh hw hpc =>
  ⟨step_fetch_error hh hw (s.fetch_error hpc), stepReport_fetch_error hh hw (s.fetch_error hpc)⟩

/-! ### diag (R37) -/

/-- No instruction appends to diag. -/
theorem exec_diag {i : Instr} {s t : State} (h : exec i s = .next t) : t.diag = s.diag :=
  (exec_frame h).diag (by cases i <;> simp [Instr.mayChange])

/-- Settles O58: of the kinds of step only the report of an unknown word appends. -/
theorem stepOnlyAppendsDiag : Obligations.StepOnlyAppendsDiag := by
  intro s t h
  obtain ⟨-, rfl⟩ | ⟨x, -, -, rfl⟩ | ⟨-, -, ⟨a, -, rfl⟩ | ⟨w, hf, hd, rfl⟩ | ⟨w, i, -, -, he⟩⟩ := step_cases h
  · exact .inl rfl
  · exact .inl (by rw [State.waitTurn_rest])
  · exact .inl rfl
  · exact .inr ⟨w, hf, hd, rfl⟩
  · exact .inl ((exec_diag he).trans s.leaveBoot_diag)

/-! ### Reports (R108) -/

/-- What a step's report says, in the terms of the states before and after it. -/
structure ReportAgrees (s t : State) (r : StepReport) : Prop where
  halted : r = .halted ↔ s.halted ≠ none
  fatal : ∀ k, r = .fatal k ↔ s.halted = none ∧ ∃ f, t.halted = some f ∧ f.kind = k
  reported : r = .reported ↔ t.diag ≠ s.diag
  waiting : r = .waiting ↔ s.halted = none ∧ s.wait ≠ none ∧ ∀ k : Reg, s.key[k] = false
  resumed : r = .resumed ↔ s.halted = none ∧ s.wait ≠ none ∧ ∃ k : Reg, s.key[k] = true

theorem reportAgrees_halted {s : State} {f : FaultRecord} (hh : s.halted = some f) : ReportAgrees s s .halted := by
  constructor <;> simp [hh]

theorem reportAgrees_waitTurn {s : State} {x : Reg} (hh : s.halted = none) (hw : s.wait = some x) :
    ReportAgrees s (s.waitTurn x) (if pressedKeys s = [] then .waiting else .resumed) := by
  by_cases hk : pressedKeys s = []
  · rw [if_pos hk, State.waitTurn_of_no_key hk]
    constructor <;> simp [hh, hw, pressedKeys_eq_nil_iff.mp hk]
  · obtain ⟨k, hkey⟩ := pressedKeys_ne_nil_iff.mp hk
    have hkeys : ∃ k : Reg, s.key[k.val] = true := ⟨k, hkey⟩
    rw [if_neg hk, s.waitTurn_rest]
    constructor <;> simp [hh, hw, hkeys]

theorem reportAgrees_fatal {s t : State} {f : FaultRecord} (hh : s.halted = none) (hw : s.wait = none)
    (ht : t.halted = some f) (hdiag : t.diag = s.diag) : ReportAgrees s t (.fatal f.kind) := by
  constructor <;> simp [hh, hw, ht, hdiag]

theorem reportAgrees_unknown {s : State} (w : Word) (hh : s.halted = none) (hw : s.wait = none) :
    ReportAgrees s (s.leaveBoot.reportUnknown w) .reported := by
  constructor <;> simp [hh, hw]

theorem reportAgrees_ran {s t : State} (hh : s.halted = none) (hw : s.wait = none) (ht : t.halted = none)
    (hdiag : t.diag = s.diag) : ReportAgrees s t .ran := by
  constructor <;> simp [hh, hw, ht, hdiag]

/-- The report of an executed instruction is the fatal one of its fault record, or that it ran. -/
theorem reportAgrees_exec {s t : State} {i : Instr} (hh : s.halted = none) (hw : s.wait = none)
    (he : exec i s.leaveBoot = .next t) : ∃ r, outcomeReport (exec i s.leaveBoot) = some r ∧ ReportAgrees s t r := by
  rw [he]
  have hdiag := (exec_diag he).trans s.leaveBoot_diag
  cases ht : t.halted with
  | none => exact ⟨.ran, by simp [outcomeReport, ht], reportAgrees_ran hh hw ht hdiag⟩
  | some f => exact ⟨.fatal f.kind, by simp [outcomeReport, ht], reportAgrees_fatal hh hw ht hdiag⟩

theorem step_answers_and_reports (s : State) :
    ∃ t r, step s = .next t ∧ stepReport s = some r ∧ ReportAgrees s t r := by
  cases hh : s.halted with
  | some f => exact ⟨_, _, step_halted hh, stepReport_halted hh, reportAgrees_halted hh⟩
  | none =>
    cases hw : s.wait with
    | some x => exact ⟨_, _, step_waiting hh hw, stepReport_waiting hh hw, reportAgrees_waitTurn hh hw⟩
    | none =>
      cases hf : s.fetch with
      | error a =>
        exact ⟨_, _, step_fetch_error hh hw hf, stepReport_fetch_error hh hw hf,
          reportAgrees_fatal hh hw (State.takeFatal_halted _ _ _) rfl⟩
      | ok w =>
        cases hd : decode w with
        | none => exact ⟨_, _, step_unknown hh hw hf hd, stepReport_unknown hh hw hf hd, reportAgrees_unknown w hh hw⟩
        | some i =>
          obtain ⟨t, he⟩ := execAnswersNextState i s.leaveBoot
          obtain ⟨r, hr, hagrees⟩ := reportAgrees_exec hh hw he
          exact ⟨t, r, (step_exec hh hw hf hd).trans he, (stepReport_exec hh hw hf hd).trans hr, hagrees⟩

/-- Settles O11: each kind of step agrees with its report. -/
theorem stepAnswersAndReports : Obligations.StepAnswersAndReports := by
  intro s
  obtain ⟨t, r, hstep, hreport, hagrees⟩ := step_answers_and_reports s
  exact ⟨t, r, hstep, hreport, hagrees.halted, hagrees.fatal, hagrees.reported, hagrees.waiting, hagrees.resumed⟩

/-! ### The self-jump (R293) -/

/-- At a normal end the block runs, and its fetched word is the jump to pc. -/
theorem State.normalEnd_iff (s : State) : s.runState = .normalEnd ↔ s.halted = none ∧ s.wait = none ∧
    s.pc.toNat < 4096 ∧ ∃ w, s.fetch = .ok w ∧ decode w = some (.jp (s.pc.setWidth 12)) := by
  cases hh : s.halted with
  | some f => simp [State.runState, hh]
  | none =>
    cases hw : s.wait with
    | some x => simp [State.runState, hh, hw]
    | none =>
      cases hf : s.fetch with
      | error a => simp [State.runState, State.atSelfJump, hh, hw, hf]
      | ok w => simp [State.runState, State.atSelfJump, hh, hw, hf, and_comm, memSize_eq]

/-- pc written back in range changes nothing. -/
theorem State.setPc_self (s : State) (h : s.pc.toNat < 4096) : s.setPc s.pc.toNat = s := by
  have hpc := s.setPc_pc_of_lt h
  calc s.setPc s.pc.toNat = { s with pc := (s.setPc s.pc.toNat).pc } := rfl
    _ = s := by rw [hpc]

/-- Settles O14: pc is in range, so the jump writes it back, and the word that decodes to the jump is the jump's own. -/
theorem selfJumpChangesNothing : Obligations.SelfJumpChangesNothing := by
  intro s hend
  obtain ⟨hh, hw, hpc, w, hf, hd⟩ := s.normalEnd_iff.mp hend
  have hfield : (s.pc.setWidth 12).toNat = s.pc.toNat := by
    rw [BitVec.toNat_setWidth, Nat.mod_eq_of_lt hpc]
  have hnext : s.pc.toNat + 1 < 4096 := by
    by_contra hpast
    rw [s.fetch_error (by omega)] at hf
    cases hf
  have hword : w.toNat = 0x1000 + s.pc.toNat := by
    rw [← encode_of_decode hd, encode, encodeAddr_toNat, hfield]
    rfl
  refine ⟨?_, State.normalEnd_iff _ |>.mpr ⟨hh, hw, hpc, w, hf, hd⟩, hnext, ?_⟩
  · rw [step_exec hh hw hf hd, exec_jp, hfield]
    exact congrArg _ (s.leaveBoot.setPc_self hpc)
  · rw [← hword, ← toNat_byte_append]
    rw [s.fetch_ok hnext] at hf
    exact congrArg BitVec.toNat (Except.ok.inj hf)

end Sys2Proof.Machine
end

section
/-! Noninterference (spec 10_state.md sections 5, 9 and 10): ST, redraw and diag are outputs, read by no step. -/

namespace Sys2Proof.Machine

/-- The state with other outputs. -/
def State.withOutputs (s : State) (st : Byte) (redraw : Bool) (diag : List UnknownReport) : State :=
  { s with st := st, redraw := redraw, diag := diag }

/-- The two states differ in the outputs only. -/
def AgreeButOutputs (s t : State) : Prop := ∃ st redraw diag, t = s.withOutputs st redraw diag

namespace AgreeButOutputs

variable {s t : State}

theorem eq (h : AgreeButOutputs s t) : t = { s with st := t.st, redraw := t.redraw, diag := t.diag } := by
  obtain ⟨st, redraw, diag, rfl⟩ := h
  rfl

theorem halted (h : AgreeButOutputs s t) : t.halted = s.halted := by
  obtain ⟨st, redraw, diag, rfl⟩ := h
  rfl

theorem setV (h : AgreeButOutputs s t) (r : Reg) (b : Byte) : AgreeButOutputs (s.setV r b) (t.setV r b) := by
  obtain ⟨st, redraw, diag, rfl⟩ := h
  exact ⟨st, redraw, diag, rfl⟩

theorem advance (h : AgreeButOutputs s t) : AgreeButOutputs s.advance t.advance := by
  obtain ⟨st, redraw, diag, rfl⟩ := h
  exact ⟨st, redraw, diag, rfl⟩

theorem takeFatal (h : AgreeButOutputs s t) (k : ErrorKind) (a : Option Nat) :
    AgreeButOutputs (s.takeFatal k a) (t.takeFatal k a) := by
  obtain ⟨st, redraw, diag, rfl⟩ := h
  exact ⟨st, redraw, diag, rfl⟩

theorem leaveBoot (h : AgreeButOutputs s t) : AgreeButOutputs s.leaveBoot t.leaveBoot := by
  obtain ⟨st, redraw, diag, rfl⟩ := h
  exact ⟨st, redraw, diag, rfl⟩

theorem reportUnknown (h : AgreeButOutputs s t) (w : Word) :
    AgreeButOutputs (s.reportUnknown w) (t.reportUnknown w) := by
  obtain ⟨st, redraw, diag, rfl⟩ := h
  exact ⟨st, redraw, _, rfl⟩

theorem skipIf (h : AgreeButOutputs s t) (c : Bool) : AgreeButOutputs (s.skipIf c) (t.skipIf c) := by
  obtain ⟨st, redraw, diag, rfl⟩ := h
  cases c <;> exact ⟨st, redraw, diag, rfl⟩

theorem waitTurn (h : AgreeButOutputs s t) (x : Reg) : AgreeButOutputs (s.waitTurn x) (t.waitTurn x) := by
  obtain ⟨st, redraw, diag, rfl⟩ := h
  have hkeys : pressedKeys (s.withOutputs st redraw diag) = pressedKeys s := rfl
  unfold State.waitTurn
  rw [hkeys]
  split <;> exact ⟨st, redraw, diag, rfl⟩

theorem storeBlock (h : AgreeButOutputs s t) (bytes : List Byte) :
    AgreeButOutputs (s.storeBlock bytes) (t.storeBlock bytes) := by
  obtain ⟨st, redraw, diag, rfl⟩ := h
  have hI : (s.withOutputs st redraw diag).I = s.I := rfl
  unfold State.storeBlock
  rw [hI]
  split <;> exact ⟨st, redraw, diag, rfl⟩

theorem loadBlock (h : AgreeButOutputs s t) (n : Nat) : AgreeButOutputs (s.loadBlock n) (t.loadBlock n) := by
  obtain ⟨st, redraw, diag, rfl⟩ := h
  have hI : (s.withOutputs st redraw diag).I = s.I := rfl
  unfold State.loadBlock
  rw [hI]
  split <;> exact ⟨st, redraw, diag, rfl⟩

/-! ### Draws: a plotted pixel and VF depend on the screen, and redraw is written only -/

theorem plot (h : AgreeButOutputs s t) (x : Nat) (y : Fin 32) : AgreeButOutputs (s.plot x y) (t.plot x y) := by
  obtain ⟨st, redraw, diag, rfl⟩ := h
  have hfb : (s.withOutputs st redraw diag).fb = s.fb := rfl
  unfold State.plot
  rw [hfb]
  split
  · split <;> exact ⟨st, true, diag, rfl⟩
  · exact ⟨st, redraw, diag, rfl⟩

theorem drawRow (h : AgreeButOutputs s t) (b : Byte) (x0 : Nat) (y : Fin 32) :
    AgreeButOutputs (s.drawRow b x0 y) (t.drawRow b x0 y) := by
  refine List.foldl_rel h fun c _ u u' hu => ?_
  split
  · exact hu.plot _ y
  · exact hu

theorem drawRows (h : AgreeButOutputs s t) (x0 y0 n : Nat) :
    AgreeButOutputs (s.drawRows x0 y0 n) (t.drawRows x0 y0 n) := by
  have hbyte (a : Nat) : t.readByte (t.I.toNat + a) = s.readByte (s.I.toNat + a) := by
    obtain ⟨st, redraw, diag, rfl⟩ := h
    rfl
  refine List.foldl_rel h fun r _ u u' hu => ?_
  split
  · rw [hbyte]
    exact hu.drawRow _ x0 _
  · exact hu

theorem drawFault {s' t' : State} (h : AgreeButOutputs s t) (h' : AgreeButOutputs s' t') (addr : Nat) :
    AgreeButOutputs (s.drawFault s' addr) (t.drawFault t' addr) := by
  obtain ⟨st, redraw, diag, rfl⟩ := h
  obtain ⟨st', redraw', diag', rfl⟩ := h'
  exact ⟨st, _, diag, rfl⟩

end AgreeButOutputs

theorem State.agree_withOutputs (s : State) (st : Byte) (redraw : Bool) (diag : List UnknownReport) :
    AgreeButOutputs s (s.withOutputs st redraw diag) := ⟨st, redraw, diag, rfl⟩

/-- Both outcomes are next states, which differ in the outputs only. -/
def OutcomesAgree (o o' : Host.Outcome State Fault Refusal) : Prop :=
  ∃ t u, o = .next t ∧ o' = .next u ∧ AgreeButOutputs t u

/-! ### Every instruction -/

section
variable {s s' : State} (h : AgreeButOutputs s s')
include h

theorem execRet_agree : OutcomesAgree (exec .ret s) (exec .ret s') := by
  obtain ⟨st, redraw, diag, rfl⟩ := h
  obtain h0 | hpos := Nat.eq_zero_or_pos s.sp.val
  · exact ⟨_, _, exec_ret_empty s h0, exec_ret_empty (s.withOutputs st redraw diag) h0, st, redraw, diag, rfl⟩
  · exact ⟨_, _, exec_ret_of_pos s hpos, exec_ret_of_pos (s.withOutputs st redraw diag) hpos, st, redraw, diag, rfl⟩

theorem execCall_agree (nnn : BitVec 12) : OutcomesAgree (exec (.call nnn) s) (exec (.call nnn) s') := by
  obtain ⟨st, redraw, diag, rfl⟩ := h
  obtain hlt | hge := Nat.lt_or_ge s.sp.val 16
  · exact ⟨_, _, exec_call_of_lt nnn s hlt, exec_call_of_lt nnn (s.withOutputs st redraw diag) hlt, st, redraw, diag,
      rfl⟩
  · have hfull : s.sp.val = 16 := by omega
    exact ⟨_, _, exec_call_full nnn s hfull, exec_call_full nnn (s.withOutputs st redraw diag) hfull, st, redraw, diag,
      rfl⟩

theorem execDrw_agree (x y : Reg) (n : BitVec 4) : OutcomesAgree (exec (.drw x y n) s) (exec (.drw x y n) s') := by
  have hdrawn (k : Nat) := (h.setV VF 0).drawRows (anchorX s.v[x]) (anchorY s.v[y]) k
  have hv : s'.v = s.v := by rw [h.eq]
  have hI : s'.I = s.I := by rw [h.eq]
  simp only [exec_drw, execDrw, hv, hI]
  cases firstOutOfRange s.I.toNat (rowsDrawn (anchorY s.v[y]) n.toNat) with
  | none => exact ⟨_, _, rfl, rfl, (hdrawn _).advance⟩
  | some r => exact ⟨_, _, rfl, rfl, h.drawFault (hdrawn _) _⟩

theorem execLdFVx_agree (x : Reg) : OutcomesAgree (exec (.ldFVx x) s) (exec (.ldFVx x) s') := by
  obtain ⟨st, redraw, diag, rfl⟩ := h
  cases hx : nibbleIndex s.v[x] with
  | none => exact ⟨_, _, exec_ldFVx_of_large hx, exec_ldFVx_of_large (s := s.withOutputs st redraw diag) hx,
      st, redraw, diag, rfl⟩
  | some d => exact ⟨_, _, exec_ldFVx_of_digit hx, exec_ldFVx_of_digit (s := s.withOutputs st redraw diag) hx,
      st, redraw, diag, rfl⟩

theorem execSkp_agree (x : Reg) : OutcomesAgree (exec (.skp x) s) (exec (.skp x) s') := by
  have hv : s'.v = s.v := by rw [h.eq]
  have hkey : s'.key = s.key := by rw [h.eq]
  simp only [exec_skp, execSkp, hv, hkey]
  cases nibbleIndex s.v[x] with
  | none => exact ⟨_, _, rfl, rfl, h.takeFatal _ _⟩
  | some k => exact ⟨_, _, rfl, rfl, h.skipIf _⟩

theorem execSknp_agree (x : Reg) : OutcomesAgree (exec (.sknp x) s) (exec (.sknp x) s') := by
  have hv : s'.v = s.v := by rw [h.eq]
  have hkey : s'.key = s.key := by rw [h.eq]
  simp only [exec_sknp, execSknp, hv, hkey]
  cases nibbleIndex s.v[x] with
  | none => exact ⟨_, _, rfl, rfl, h.takeFatal _ _⟩
  | some k => exact ⟨_, _, rfl, rfl, h.skipIf _⟩

theorem exec_agree (i : Instr) : OutcomesAgree (exec i s) (exec i s') := by
  cases i with
  | ret => exact execRet_agree h
  | call nnn => exact execCall_agree h nnn
  | drw x y n => exact execDrw_agree h x y n
  | ldFVx x => exact execLdFVx_agree h x
  | skp x => exact execSkp_agree h x
  | sknp x => exact execSknp_agree h x
  | seByte | sneByte | seReg | sneReg =>
    obtain ⟨st, redraw, diag, rfl⟩ := h
    exact ⟨_, _, rfl, rfl, (s.agree_withOutputs st redraw diag).skipIf _⟩
  | ldBVx | storeRegs =>
    obtain ⟨st, redraw, diag, rfl⟩ := h
    exact ⟨_, _, rfl, rfl, (s.agree_withOutputs st redraw diag).storeBlock _⟩
  | loadRegs => exact ⟨_, _, rfl, rfl, h.loadBlock _⟩
  | _ =>
    obtain ⟨st, redraw, diag, rfl⟩ := h
    exact ⟨_, _, rfl, rfl, _, _, _, rfl⟩

/-! ### Every step -/

/-- Agreeing states take the same kind of step. -/
theorem step_agree : OutcomesAgree (step s) (step s') ∧ stepReport s' = stepReport s := by
  have hb := h.leaveBoot
  have hkeys : pressedKeys s' = pressedKeys s := by rw [h.eq]; rfl
  have hwait : s'.wait = s.wait := by rw [h.eq]
  have hfetch : s'.fetch = s.fetch := by rw [h.eq]; rfl
  cases hh : s.halted with
  | some f =>
    have hh' := h.halted.trans hh
    rw [step_halted hh, step_halted hh', stepReport_halted hh, stepReport_halted hh']
    exact ⟨⟨_, _, rfl, rfl, h⟩, rfl⟩
  | none =>
    have hh' := h.halted.trans hh
    cases hw : s.wait with
    | some x =>
      have hw' := hwait.trans hw
      rw [step_waiting hh hw, step_waiting hh' hw', stepReport_waiting hh hw, stepReport_waiting hh' hw', hkeys]
      exact ⟨⟨_, _, rfl, rfl, h.waitTurn x⟩, rfl⟩
    | none =>
      have hw' := hwait.trans hw
      cases hf : s.fetch with
      | error a =>
        have hf' := hfetch.trans hf
        rw [step_fetch_error hh hw hf, step_fetch_error hh' hw' hf', stepReport_fetch_error hh hw hf,
          stepReport_fetch_error hh' hw' hf']
        exact ⟨⟨_, _, rfl, rfl, hb.takeFatal _ _⟩, rfl⟩
      | ok w =>
        have hf' := hfetch.trans hf
        cases hd : decode w with
        | none =>
          rw [step_unknown hh hw hf hd, step_unknown hh' hw' hf' hd, stepReport_unknown hh hw hf hd,
            stepReport_unknown hh' hw' hf' hd]
          exact ⟨⟨_, _, rfl, rfl, hb.reportUnknown w⟩, rfl⟩
        | some i =>
          rw [step_exec hh hw hf hd, step_exec hh' hw' hf' hd, stepReport_exec hh hw hf hd,
            stepReport_exec hh' hw' hf' hd]
          obtain ⟨t, u, ht, hu, htu⟩ := exec_agree hb i
          rw [ht, hu, outcomeReport, outcomeReport, htu.halted]
          exact ⟨⟨t, u, rfl, rfl, htu⟩, rfl⟩

end

/-- Settles O57: every kind of step takes agreeing states to agreeing states and reads the same report from them. -/
theorem stepDoesNotReadOutputs : Obligations.StepDoesNotReadOutputs := by
  intro s t st redraw diag h
  have hagree := s.agree_withOutputs st redraw diag
  obtain ⟨⟨t', u, ht, hu, htu⟩, hreport⟩ := step_agree hagree
  obtain rfl := Host.Outcome.next.inj (ht.symm.trans h)
  exact ⟨u, hu, htu.eq, hreport⟩

end Sys2Proof.Machine
end

section
/-! The host's transactions (spec 45_timers_keys.md section 1, 60_exceptions.md section 2, 70_reset_and_hazards.md): what
each answers, and what it leaves of the fault record and the boot phase. -/

namespace Sys2Proof.Machine

/-! ### reset, tick and set_key (R220, R221, R280) -/

/-- Settles O16: reset answers the reset state, whose entries, keys and pixels are all at their zero value. -/
theorem resetLeavesEveryField : Obligations.ResetLeavesEveryField := fun s =>
  ⟨s.hostReset, transact_reset s, rfl, fun k => Vector.getElem_replicate k.isLt, rfl, rfl,
    fun k => Vector.getElem_replicate k.isLt, Grid.getElem_blank, rfl, rfl, rfl, rfl, rfl⟩

theorem transact_tick (s : State) : transact s .tick = .next (s.tick, .done) := rfl

/-- Natural subtraction stops at 0 as the countdown does (R220). -/
theorem countDown_toNat (b : Byte) : (countDown b).toNat = b.toNat - 1 := by
  unfold countDown
  split
  · simp [*]
  · bv_omega

/-- Settles O19: both timers take one countdown. -/
theorem tickCountsDown : Obligations.TickCountsDown := fun s =>
  ⟨s.tick, transact_tick s, countDown_toNat s.dt, countDown_toNat s.st, rfl⟩

theorem transact_setKey (s : State) (k : Reg) (b : Bool) : transact s (.setKey k b) = .next (s.setKey k b, .done) := rfl

/-- Settles O21: one entry of the key array is set. -/
theorem setKeyWritesOneKey : Obligations.SetKeyWritesOneKey := fun s k b =>
  ⟨s.setKey k b, transact_setKey s k b, Vector.getElem_set_self k.isLt,
    fun j hj => Vector.getElem_set_ne k.isLt j.isLt fun heq => hj (Fin.ext heq.symm), rfl⟩

/-! ### What a transaction answers (R40, R289) -/

theorem transact_load_of_not_boot {s : State} (h : s.boot = false) (src : Option (List Byte)) :
    transact s (.load src) = .refused .loadOutsideBoot := if_neg (Bool.eq_false_iff.mp h)

/-- A load ends in the state it began in or with a ROM of legal length in memory (R284–R286). -/
theorem State.hostLoad_cases (s : State) (src : Option (List Byte)) : (s.hostLoad src).1 = s ∨
    ∃ bytes : List Byte, bytes.length ≤ 3584 ∧ (s.hostLoad src).1 = s.loadRom bytes := by
  cases src with
  | none => exact .inl rfl
  | some bytes =>
    obtain hlong | hfits := Nat.lt_or_ge 3584 bytes.length
    · exact .inl (congrArg Prod.fst (s.hostLoad_too_long hlong))
    · exact .inr ⟨bytes, hfits, congrArg Prod.fst (s.hostLoad_fits hfits)⟩

/-- The step transaction answers the step's next state. -/
theorem step_of_transact_step {s t : State} {r : Reply} (h : transact s .step = .next (t, r)) : step s = .next t := by
  obtain ⟨t', r', hstep, hreport, -⟩ := step_answers_and_reports s
  have hhost : transact s .step = .next (t', .stepped r') := by
    rw [show transact s .step = s.hostStep from rfl, State.hostStep, hstep, hreport]
  obtain ⟨rfl, -⟩ := Prod.mk.inj (Host.Outcome.next.inj (hhost.symm.trans h))
  exact hstep

/-- Everything a transaction can answer. -/
inductive Answers (s : State) : Transaction → State → Prop
  | reset : Answers s .reset s.hostReset
  | step {t : State} : step s = .next t → Answers s .step t
  | loadFailed {src : Option (List Byte)} : Answers s (.load src) s
  | loaded {src : Option (List Byte)} {bytes : List Byte} :
    s.boot = true → bytes.length ≤ 3584 → Answers s (.load src) (s.loadRom bytes)
  | tick : Answers s .tick s.tick
  | setKey {k : Reg} {b : Bool} : Answers s (.setKey k b) (s.setKey k b)
  | clearRedraw : Answers s .clearRedraw s.clearRedraw
  | snapshot : Answers s .snapshot s

theorem answers_of_transact {s t : State} {tr : Transaction} {r : Reply} (h : transact s tr = .next (t, r)) :
    Answers s tr t := by
  cases tr with
  | step => exact .step (step_of_transact_step h)
  | load src =>
    cases hb : s.boot with
    | false => cases (transact_load_of_not_boot hb src).symm.trans h
    | true =>
      obtain rfl : (s.hostLoad src).1 = t :=
        congrArg Prod.fst (Host.Outcome.next.inj ((transact_load_of_boot hb src).symm.trans h))
      obtain hsame | ⟨bytes, hlen, hrom⟩ := s.hostLoad_cases src
      · rw [hsame]
        exact .loadFailed
      · rw [hrom]
        exact .loaded hb hlen
  | reset | tick | setKey | clearRedraw | snapshot =>
    cases h
    constructor

/-- Settles O9: the step of a halted block is no move, and the host's other transactions keep the fault record. -/
theorem haltedStepDoesNothing : Obligations.HaltedStepDoesNothing := by
  intro s f hh
  refine ⟨step_halted hh, stepReport_halted hh, fun tr t r hne h => ?_⟩
  cases answers_of_transact h with
  | reset => exact absurd rfl hne
  | step hstep =>
    obtain rfl := Host.Outcome.next.inj ((step_halted hh).symm.trans hstep)
    exact hh
  | _ => exact hh

/-! ### The boot phase (R283) -/

/-- A step from a state that meets the invariant ends the boot phase: a halted or waiting block has left it. -/
theorem step_ends_boot {s t : State} (hs : s.Inv) (h : step s = .next t) : t.boot = false := by
  obtain ⟨hh, rfl⟩ | ⟨x, -, hw, rfl⟩ | ⟨-, -, ⟨a, -, rfl⟩ | ⟨w, -, -, rfl⟩ | ⟨w, i, -, -, he⟩⟩ := step_cases h
  · exact Bool.eq_false_iff.mpr fun hb => hh (hs.boot hb).1
  · rw [State.waitTurn_rest]
    refine Bool.eq_false_iff.mpr fun hb => ?_
    rw [(hs.boot hb).2] at hw
    cases hw
  · rfl
  · rfl
  · exact (exec_frame he).boot

/-- Settles O18: the boot bit opens load; of the transactions only step and reset write it. -/
theorem loadOnlyInBootPhase : Obligations.LoadOnlyInBootPhase := by
  refine ⟨rfl, fun s src hb => transact_load_of_not_boot hb src, fun s src hb => ⟨_, _, transact_load_of_boot hb src⟩,
    fun s t tr r hstep hreset h => ?_, fun s t r h => ?_, fun s t r hs h => step_ends_boot hs (step_of_transact_step h)⟩
  · cases answers_of_transact h with
    | reset => exact absurd rfl hreset
    | step => exact absurd rfl hstep
    | _ => rfl
  · cases h
    rfl

end Sys2Proof.Machine
end

section
/-! The invariant (spec 10_state.md sections 10 and 11, 60_exceptions.md section 2, 45_timers_keys.md section 4): it holds
after reset, and every step and every transaction of the host keeps it. -/

namespace Sys2Proof.Machine

/-! ### Ranges (R14, R38) -/

/-- The part of the invariant that speaks of memory and ranges. -/
structure State.InRange (s : State) : Prop where
  mem : Memory.wf s.mem = true
  pc : s.pc.toNat < 4096
  I : s.I.toNat < 4096
  stack : ∀ k : Fin 16, s.stack[k].toNat < 4096

theorem State.Inv.inRange {s : State} (h : s.Inv) : s.InRange := ⟨h.mem, h.pc, h.I, h.stack⟩

theorem State.InRange.congr {s t : State} (hs : s.InRange) (hm : t.mem = s.mem) (hpc : t.pc = s.pc) (hI : t.I = s.I)
    (hst : t.stack = s.stack) : t.InRange :=
  ⟨hm ▸ hs.mem, hpc ▸ hs.pc, hI ▸ hs.I, hst ▸ hs.stack⟩

theorem State.InRange.leaveBoot {s : State} (hs : s.InRange) : s.leaveBoot.InRange := hs.congr rfl rfl rfl rfl

theorem State.InRange.setPc {s : State} {a : Nat} (hs : s.InRange) : (s.setPc a).InRange :=
  ⟨hs.mem, ofNat_mod_lt a, hs.I, hs.stack⟩

/-- A draw writes none of the ranges. -/
theorem State.InRange.drawRows {s : State} (hs : s.InRange) (x0 y0 n : Nat) : (s.drawRows x0 y0 n).InRange := by
  rw [(s.drawRows_drawn x0 y0 n).rest]
  exact hs.congr rfl rfl rfl rfl

/-- What an instruction leaves of the invariant: the ranges, and a fault record that is the old one or a legal new
one. -/
structure Sound (s t : State) : Prop where
  inRange : t.InRange
  record : t.halted = s.halted ∨ ∃ f, t.halted = some f ∧ f.Legal t

namespace Sound

variable {s t : State}

/-- An instruction that ran ends with a write of pc. -/
theorem setPc {a : Nat} (ht : t.InRange) (hh : t.halted = s.halted) : Sound s (t.setPc a) := ⟨ht.setPc, .inl hh⟩

theorem skipIf (hs : s.InRange) (c : Bool) : Sound s (s.skipIf c) := by
  cases c <;> exact setPc hs rfl

/-- A fatal error records pc, and 0x1000 for `BoundsError` only. -/
theorem takeFatal {k : ErrorKind} {a : Option Nat} (ht : t.InRange) (hk : k.severity = .fatal)
    (ha : a = if k = .boundsError then some 4096 else none) : Sound s (t.takeFatal k a) :=
  ⟨ht.congr rfl rfl rfl rfl, .inr ⟨_, rfl, hk, rfl, ha⟩⟩

theorem storeBlock (hs : s.InRange) (bytes : List Byte) : Sound s (s.storeBlock bytes) := by
  obtain hpast | hfits := Nat.lt_or_ge 4096 (s.I.toNat + bytes.length)
  · rw [s.storeBlock_fault bytes hs.I hpast]
    have hI := hs.I
    have hlen : (bytes.take (4096 - s.I.toNat)).length = 4096 - s.I.toNat := List.length_take_of_le (by omega)
    refine takeFatal ⟨Memory.storeOldOrNew_wf hs.mem _ (.inr ?_), hs.pc, hs.I, hs.stack⟩ rfl rfl
    rw [hlen]
    omega
  · rw [s.storeBlock_ok bytes (.inr hfits)]
    exact setPc ⟨Memory.storeBytes_wf hs.mem bytes (.inr hfits), hs.pc, hs.I, hs.stack⟩ rfl

theorem loadBlock (hs : s.InRange) (n : Nat) : Sound s (s.loadBlock n) := by
  obtain hpast | hfits := Nat.lt_or_ge 4096 (s.I.toNat + n)
  · rw [s.loadBlock_fault n hs.I hpast]
    exact takeFatal (hs.congr rfl rfl rfl rfl) rfl rfl
  · rw [s.loadBlock_ok n (.inr hfits)]
    exact setPc (hs.congr rfl rfl rfl rfl) rfl

theorem drawFault {new : State} {addr : Nat} (hs : s.InRange) (ha : addr = 4096) : Sound s (s.drawFault new addr) := by
  subst ha
  exact takeFatal (hs.congr rfl rfl rfl rfl) rfl rfl

end Sound

section
variable {s t : State}

/-! ### Every instruction -/

theorem execRet_sound (hs : s.InRange) (h : exec .ret s = .next t) : Sound s t := by
  obtain h0 | hpos := Nat.eq_zero_or_pos s.sp.val
  · obtain rfl := Host.Outcome.next.inj ((exec_ret_empty s h0).symm.trans h)
    exact .takeFatal hs rfl rfl
  · obtain rfl := Host.Outcome.next.inj ((exec_ret_of_pos s hpos).symm.trans h)
    exact .setPc (hs.congr rfl rfl rfl rfl) rfl

/-- CALL pushes next(pc), which is in range (R28). -/
theorem execCall_sound {nnn : BitVec 12} (hs : s.InRange) (h : exec (.call nnn) s = .next t) : Sound s t := by
  obtain hlt | hge := Nat.lt_or_ge s.sp.val 16
  · obtain rfl := Host.Outcome.next.inj ((exec_call_of_lt nnn s hlt).symm.trans h)
    refine .setPc ⟨hs.mem, hs.pc, hs.I, fun k => ?_⟩ rfl
    by_cases hk : k.val = s.sp.val
    · simpa [hk, Vector.getElem_set] using nextPc_lt s
    · simpa [Ne.symm hk, Vector.getElem_set] using hs.stack k
  · obtain rfl := Host.Outcome.next.inj ((exec_call_full nnn s (by omega)).symm.trans h)
    exact .takeFatal hs rfl rfl

theorem execDrw_sound {x y : Reg} {n : BitVec 4} (hs : s.InRange) (h : exec (.drw x y n) s = .next t) :
    Sound s t := by
  obtain hok | ⟨r, hr, hfault⟩ := exec_drw_cases x y n s
  · obtain rfl := Host.Outcome.next.inj (hok.symm.trans h)
    refine .setPc ((hs.congr rfl rfl rfl rfl : (s.setV VF 0).InRange).drawRows _ _ _) ?_
    rw [(State.drawRows_drawn (s.setV VF 0) _ _ _).rest]
    rfl
  · obtain rfl := Host.Outcome.next.inj (hfault.symm.trans h)
    exact .drawFault hs (firstOutOfRange_addr hr hs.I)

theorem execLdFVx_sound {x : Reg} (hs : s.InRange) (h : exec (.ldFVx x) s = .next t) : Sound s t := by
  obtain ⟨d, hok⟩ | hfault := exec_ldFVx_cases x s
  · obtain rfl := Host.Outcome.next.inj (hok.symm.trans h)
    exact .setPc ⟨hs.mem, hs.pc, ofNat_mod_lt _, hs.stack⟩ rfl
  · obtain rfl := Host.Outcome.next.inj (hfault.symm.trans h)
    exact .takeFatal hs rfl rfl

/-- A key skip that ran or faulted. -/
theorem Sound.of_skipIf_or_fatal {o : Host.Outcome State Fault Refusal} (hs : s.InRange)
    (ho : (∃ c, o = .next (s.skipIf c)) ∨ o = .next (s.takeFatal .operandRangeError none)) (h : o = .next t) :
    Sound s t := by
  obtain ⟨c, hok⟩ | hfault := ho
  · obtain rfl := Host.Outcome.next.inj (hok.symm.trans h)
    exact .skipIf hs c
  · obtain rfl := Host.Outcome.next.inj (hfault.symm.trans h)
    exact .takeFatal hs rfl rfl

theorem exec_sound {i : Instr} (hs : s.InRange) (h : exec i s = .next t) : Sound s t := by
  cases i with
  | ret => exact execRet_sound hs h
  | call => exact execCall_sound hs h
  | drw => exact execDrw_sound hs h
  | ldFVx => exact execLdFVx_sound hs h
  | skp x => exact .of_skipIf_or_fatal hs (exec_skp_cases x s) h
  | sknp x => exact .of_skipIf_or_fatal hs (exec_sknp_cases x s) h
  | seByte | sneByte | seReg | sneReg =>
    cases h
    exact .skipIf hs _
  | ldI | addIVx =>
    cases h
    exact .setPc ⟨hs.mem, hs.pc, ofNat_mod_lt _, hs.stack⟩ rfl
  | ldBVx | storeRegs =>
    cases h
    exact .storeBlock hs _
  | loadRegs =>
    cases h
    exact .loadBlock hs _
  | ldVxK =>
    cases h
    exact ⟨hs.congr rfl rfl rfl rfl, .inl rfl⟩
  | cls | jp | jpV0 | ldByte | addByte | ldReg | or | and | xor | addReg | sub | shr | subn | shl | rnd | ldVxDT
  | ldDTVx | ldSTVx =>
    cases h
    exact .setPc (hs.congr rfl rfl rfl rfl) rfl

/-! ### Every step -/

/-- A state that has left the boot phase and does not wait meets the invariant by its ranges, reports and record. -/
theorem State.Inv.of_running (hr : t.InRange) (hdiag : ∀ r ∈ t.diag, r.pc.toNat < 4096 ∧ decode r.word = none)
    (hrecord : ∀ f, t.halted = some f → f.Legal t) (hwait : t.wait = none) (hboot : t.boot = false) : t.Inv where
  mem := hr.mem
  pc := hr.pc
  I := hr.I
  stack := hr.stack
  diag := hdiag
  record := hrecord
  exclusive := .inr hwait
  parked x hx := by
    rw [hwait] at hx
    cases hx
  boot hb := by
    rw [hboot] at hb
    cases hb

/-- The fault record after an instruction that ran in a block not halted. -/
theorem Sound.legal (h : Sound s t) (hh : s.halted = none) (f : FaultRecord) (hf : t.halted = some f) : f.Legal t := by
  obtain hsame | ⟨g, hg, hlegal⟩ := h.record
  · rw [hsame, hh] at hf
    cases hf
  · obtain rfl := Option.some.inj (hg.symm.trans hf)
    exact hlegal

/-- The wait turn resumes with the invariant, or leaves the block waiting as it was. -/
theorem State.Inv.waitTurn (hs : s.Inv) {x : Reg} (hh : s.halted = none) (hw : s.wait = some x) :
    (s.waitTurn x).Inv := by
  by_cases hkeys : pressedKeys s = []
  · rwa [State.waitTurn_of_no_key hkeys]
  · obtain ⟨k, -, hturn⟩ := State.waitTurn_of_key hkeys x
    have hboot : s.boot = false := Bool.eq_false_iff.mpr fun hb => by
      rw [(hs.boot hb).2] at hw
      cases hw
    rw [hturn]
    refine .of_running (.setPc (hs.inRange.congr rfl rfl rfl rfl)) hs.diag (fun f hf => ?_) rfl hboot
    cases hh.symm.trans hf

/-- LD Vx,K parks the block at the word that was fetched (R230). -/
theorem State.Inv.park (hs : s.Inv) {x : Reg} {w : Word} (hh : s.halted = none) (hf : s.fetch = .ok w)
    (hd : decode w = some (.ldVxK x)) : ({ s.leaveBoot with wait := some x } : State).Inv where
  mem := hs.mem
  pc := hs.pc
  I := hs.I
  stack := hs.stack
  diag := hs.diag
  record f hf := nomatch hh.symm.trans hf
  exclusive := .inl hh
  parked y hy := by
    obtain rfl := Option.some.inj hy
    exact ⟨w, hf, hd⟩
  boot hb := nomatch hb

/-- An executed instruction keeps the invariant. -/
theorem State.Inv.exec (hs : s.Inv) {w : Word} {i : Instr} (hh : s.halted = none) (hw : s.wait = none)
    (hf : s.fetch = .ok w) (hd : decode w = some i) (he : exec i s.leaveBoot = .next t) : t.Inv := by
  by_cases hk : Part.wait ∈ i.mayChange
  · cases i with
    | ldVxK x =>
      cases he
      exact hs.park hh hf hd
    | _ => simp [Instr.mayChange] at hk
  · have hframe := exec_frame he
    have hsound := exec_sound hs.inRange.leaveBoot he
    refine .of_running hsound.inRange (fun r hr => ?_) (hsound.legal hh) ((hframe.wait hk).trans hw) hframe.boot
    rw [exec_diag he] at hr
    exact hs.diag r hr

/-- A fetch out of range of a pc in range is at 0x1000 (R55, R101). -/
theorem State.fetch_error_addr {a : Nat} (hpc : s.pc.toNat < 4096) (hf : s.fetch = .error a) : a = 4096 := by
  obtain hlt | hge := Nat.lt_or_ge (s.pc.toNat + 1) 4096
  · rw [s.fetch_ok hlt] at hf
    cases hf
  · rw [s.fetch_error hge] at hf
    have := Except.error.inj hf
    omega

/-! ### Every transaction of the host -/

/-- The invariant reads neither timers, keys, screen, redraw, V registers, sp nor the draw counter. -/
theorem State.Inv.congr (hs : s.Inv)
    (h : t = { s with
      v := t.v, sp := t.sp, dt := t.dt, st := t.st, key := t.key, fb := t.fb, redraw := t.redraw, draws := t.draws }) :
    t.Inv := by
  rw [h]
  refine ⟨hs.mem, hs.pc, hs.I, hs.stack, hs.diag, fun f hf => ?_, hs.exclusive, hs.parked, hs.boot⟩
  obtain ⟨hfatal, hpc, haddr⟩ := hs.record f hf
  exact ⟨hfatal, hpc, haddr⟩

/-- A load stores inside memory, in a block that neither waits nor is halted. -/
theorem State.Inv.loadRom (hs : s.Inv) (hb : s.boot = true) {bytes : List Byte} (hlen : bytes.length ≤ 3584) :
    (s.loadRom bytes).Inv where
  mem := Memory.storeBytes_wf hs.mem bytes (.inr (show 0x200 + bytes.length ≤ 4096 by omega))
  pc := hs.pc
  I := hs.I
  stack := hs.stack
  diag := hs.diag
  record f hf := nomatch (hs.boot hb).1.symm.trans hf
  exclusive := hs.exclusive
  parked x hx := nomatch (hs.boot hb).2.symm.trans hx
  boot := hs.boot

end

/-! ### The statements -/

/-- Settles O22: every clause of the reset state is closed. -/
theorem resetMeetsInvariant : Obligations.ResetMeetsInvariant where
  mem := rfl
  pc := by decide
  I := by decide
  stack := by decide
  diag _ hr := nomatch hr
  record _ hf := nomatch hf
  exclusive := .inl rfl
  parked _ hx := nomatch hx
  boot _ := ⟨rfl, rfl⟩

/-- Settles O23: each kind of step keeps the invariant. -/
theorem stepKeepsInvariant : Obligations.StepKeepsInvariant := by
  intro s t hs h
  obtain ⟨-, rfl⟩ | ⟨x, hh, hw, rfl⟩ | ⟨hh, hw, ⟨a, hf, rfl⟩ | ⟨w, hf, hd, rfl⟩ | ⟨w, i, hf, hd, he⟩⟩ := step_cases h
  · exact hs
  · exact hs.waitTurn hh hw
  · obtain rfl := State.fetch_error_addr hs.pc hf
    have hsound : Sound s (s.leaveBoot.takeFatal .boundsError (some 4096)) :=
      .takeFatal hs.inRange.leaveBoot rfl rfl
    exact .of_running hsound.inRange hs.diag (hsound.legal hh) hw rfl
  · refine .of_running (.setPc (hs.inRange.congr rfl rfl rfl rfl)) (fun r hr => ?_)
      (fun f hf => nomatch hh.symm.trans hf) hw rfl
    obtain hold | hnew := List.mem_append.mp hr
    · exact hs.diag r hold
    · obtain rfl := List.mem_singleton.mp hnew
      exact ⟨hs.pc, hd⟩
  · exact hs.exec hh hw hf hd he

/-- Settles O24: reset gives the reset state, load and step keep the invariant, and the others write none of its fields. -/
theorem transactionKeepsInvariant : Obligations.TransactionKeepsInvariant := by
  intro s t tr r hs h
  cases answers_of_transact h with
  | reset => exact resetMeetsInvariant.congr rfl
  | step hstep => exact stepKeepsInvariant s t hs hstep
  | loadFailed | snapshot => exact hs
  | loaded hb hlen => exact hs.loadRom hb hlen
  | tick | setKey | clearRedraw => exact hs.congr rfl

end Sys2Proof.Machine
end
